-- ==== Sys2Proof/Word.lean ====
section
/-! DEFINITION. The values the BitBangTransport works on: levels, directions, the two lines, bytes and command words. -/

namespace Sys2Proof

/-- A data byte, 8 bits, unsigned (`30_encoding.md` R49, R52). -/
abbrev Byte := BitVec 8

/-- A command word, `CMD_BITS = 10` bits (`30_encoding.md` R50). -/
abbrev CmdWord := BitVec 10

/-- The level of a line or of an output latch: `LOW = 0`, `HIGH = 1` (`00_scope.md` R7). -/
inductive Level where
  | low
  | high
deriving DecidableEq, Repr, Inhabited

/-- The direction of a line, the value of its output-enable bit: `INPUT = 0` (released), `OUTPUT = 1` (driven)
(`00_scope.md` R7). -/
inductive Direction where
  | input
  | output
deriving DecidableEq, Repr, Inhabited

/-- The two lines of the block (`00_scope.md` R6 `N_LINES = 2`, `20_memory.md` R37: selected by name). -/
inductive Line where
  | clk
  | dio
deriving DecidableEq, Repr, Inhabited

/-- The level a bit stands for: 1 is `HIGH`, 0 is `LOW` (`00_scope.md` R7). -/
def Level.ofBool : Bool → Level
  | true => .high
  | false => .low

/-- The bit a level is written as (`00_scope.md` R7). -/
def Level.toBit : Level → BitVec 1
  | .high => 1
  | .low => 0

/-- The output-enable bit a direction is written as (`00_scope.md` R7). -/
def Direction.toBit : Direction → BitVec 1
  | .output => 1
  | .input => 0

end Sys2Proof
end

