-- ==== Sys2Proof/Config.lean ====
section
/-! DEFINITION. The parameters of one BitBangTransport (`00_scope.md` R6): the fixed ones as constants, the OPEN ones
as the fields of `Config`, over which every statement quantifies. -/

namespace Sys2Proof

/-- The OPEN parameters of R6 that the engine's registers depend on. The third OPEN one, `CLK_RELEASED_LEVEL`, is an
environment value that may differ at each look and stands in `Machine.Env`. -/
structure Config where
  /-- `DLY_CYCLES - 1`, so that `DLY_CYCLES ≥ 1` needs no side condition (R6, R17). -/
  dlyExtra : Nat
  /-- `DIO_OUT_RESET`, the reset value of the data latch (R6, R24; `92_eei_decisions.md` D9: OPEN). -/
  dioOutReset : Level
deriving DecidableEq, Repr, Inhabited

/-- `DLY_CYCLES`: engine clocks per bit period, at least 1 (R6, R17). -/
def Config.dlyCycles (c : Config) : Nat := c.dlyExtra + 1

/-- `ceil(T_BIT × F_CLK)` with `T_BIT` in nanoseconds and `F_CLK` in hertz (R6).
DESIGN CHOICE (log entry 16): the units; R6 gives none. -/
def ceilCycles (tBitNs fClkHz : Nat) : Nat := (tBitNs * fClkHz + 999999999) / 1000000000

/-- The configuration whose `DLY_CYCLES` is the larger of 1 and `ceil(T_BIT × F_CLK)` (R6, R17).
DESIGN CHOICE (log entry 16): the value 1 where the product is 0. -/
def Config.ofTiming (tBitNs fClkHz : Nat) (dioOutReset : Level) : Config :=
  { dlyExtra := ceilCycles tBitNs fClkHz - 1, dioOutReset := dioOutReset }

/-- The values `State.reset` names for the OPEN parameters: `DIO_OUT_RESET = LOW` is the spec's recommended default
(R6, R24), one engine clock per bit period is the least R6 allows.
DESIGN CHOICE (log entry 1): no statement rests on them. -/
def Config.recommended : Config := { dlyExtra := 0, dioOutReset := .low }

/-- `N_LINES` (R6). -/
def nLines : Nat := 2

/-- `CMD_BITS` (R6, R50). -/
def cmdBits : Nat := 10

/-- `BYTE_BITS`: data bits per `WRITE_BYTE` (R6, R40). -/
def byteBits : Nat := 8

/-- `ACK_SLOTS`: extra clock pulses after the data bits (R6, R71). -/
def ackSlots : Nat := 1

/-- `DIO_PULL`: the level of a released data line nothing drives (R6, R34). -/
def dioPull : Level := .low

/-- `T_BIT`'s nominal value in nanoseconds, 1 ms (R6, R125). No rule depends on it (R126). -/
def tBitNominalNs : Nat := 1000000

end Sys2Proof
end

