-- ==== Sys2Proof/Machine/State.lean ====
section
/-! DEFINITION. The state of the BitBangTransport (`10_state.md` R11 to R24), the inputs it sees, and reset. -/

namespace Sys2Proof.Machine

/-- A pin state `P = (CLK_OE, CLK_OUT, DIO_OE, DIO_OUT)`: the four pin registers (`00_scope.md` R7, `10_state.md`
R13). No combination is illegal. -/
structure Pins where
  /-- `CLK_OE`, 1 bit: direction of the clock line. -/
  clkOe : Direction
  /-- `CLK_OUT`, 1 bit: output latch of the clock line. -/
  clkOut : Level
  /-- `DIO_OE`, 1 bit: direction of the data line. -/
  dioOe : Direction
  /-- `DIO_OUT`, 1 bit: output latch of the data line. -/
  dioOut : Level
deriving DecidableEq, Repr, Inhabited

/-- The five values of `SEQ.OP` (3 bits, R14). -/
inductive SeqOp where
  | idle
  | start
  | stop
  | writeByte
  | release
deriving DecidableEq, Repr, Inhabited

/-- `SEQ = (OP, K)`, the block's counterpart of a program counter (R14). `K` is 5 bits wide; it is never masked and never
wraps, and `EngineInv` says that it stays at or below `last(OP)`. -/
structure Seq where
  op : SeqOp
  k : Nat
deriving DecidableEq, Repr, Inhabited

/-- What the world outside the block does to the lines at this moment (`20_memory.md` R34, `00_scope.md` R9): free
values, which no rule fixes and every statement quantifies over. -/
structure Env where
  /-- The level at which the display-driver chip drives `DIO`; none when it does not drive (R34, R72). -/
  chip : Option Level
  /-- `CLK_RELEASED_LEVEL` at this look (R34, D17). -/
  clkReleased : Level
  /-- The level a contended data line shows at this look (R34, D18, U3). -/
  contended : Level
deriving DecidableEq, Repr, Inhabited

/-- The state. The first four fields are the block's registers (R11); `BUSY` is a function of `SEQ` (R16) and is computed
(`State.busy`). The last four are the model's own: the parameters of this block and the inputs it sees. -/
structure State where
  /-- `CLK_OE`, `CLK_OUT`, `DIO_OE`, `DIO_OUT` (R13). -/
  pins : Pins
  /-- `SEQ` (R14). -/
  seq : Seq
  /-- `DATA`, 8 bits (R12). -/
  data : Byte
  /-- `DLY`, the bit-period down-counter (R17); its width follows from the OPEN `DLY_CYCLES`. -/
  dly : Nat
  /-- The OPEN parameters (`00_scope.md` R6); no step changes them. -/
  cfg : Config
  /-- The reset input `rst` (`70_reset_and_hazards.md` R107). -/
  rst : Bool
  /-- The host's side of the command port (`30_encoding.md` R55): the head is the word it presents now (`cmd_valid` is
  the list being non-empty), the rest are the words it will present after, in order. The block itself has no queue. -/
  port : List CmdWord
  /-- What the chip and the board do to the lines at this moment. -/
  env : Env
deriving DecidableEq, Repr, Inhabited

/-- Why the machine could stop: the complete table of causes is empty (`60_exceptions.md` R89), so this type has no
constructor, nobody can raise a fault, and there is nothing safe or otherwise to say of one. -/
inductive Fault where
deriving DecidableEq, Repr

/-- Why an instruction would have no meaning. -/
inductive Refusal where
  /-- For an arm of `exec` whose instruction has no meaning yet; raised by no arm, since all four have theirs. Safe: the
  machine stops where the hardware goes on. -/
  | notModelled (mnemonic : String)
deriving DecidableEq, Repr

/-- The pin registers after reset: both lines released, `CLK_OUT = 0`, `DIO_OUT = DIO_OUT_RESET` (R24). -/
def Pins.atReset (c : Config) : Pins :=
  { clkOe := .input, clkOut := .low, dioOe := .input, dioOut := c.dioOutReset }

/-- The position `(IDLE, 0)` (R14). -/
def Seq.idle : Seq := { op := .idle, k := 0 }

/-- The block right after reset, for any parameters and any environment: every register as R24 says, `rst` released,
nothing presented ("nothing is pending after reset", R21). -/
def State.resetWith (c : Config) (e : Env) : State :=
  { pins := .atReset c, seq := .idle, data := 0, dly := 0, cfg := c, rst := false, port := [], env := e }

/-- The surroundings `State.reset` names: the chip drives nothing, the other two levels are `LOW`.
DESIGN CHOICE (log entry 2): no statement rests on them. -/
def Env.quiet : Env := { chip := none, clkReleased := .low, contended := .low }

/-- The machine right after reset (R24, R107). -/
def State.reset : State := .resetWith .recommended .quiet

end Sys2Proof.Machine
end

