-- ==== Sys2Proof/Syntax.lean ====
section
/-! DEFINITION. BBT-OPS: the four operations of the opcode table, and the one pseudo-instruction FRAME. -/

namespace Sys2Proof

/-- The operation set (`30_encoding.md` R49), one constructor per row of the opcode table. Every command word carries a
`data` field, and `Accept` copies it to `DATA` whatever the operation (R12, R52, R53), so every constructor carries
it: it is the operand of `WRITE_BYTE` and the ignored field of the other three. -/
inductive Instr where
  /-- `START` (R61), with its ignored data field. -/
  | start (ignored : Byte)
  /-- `STOP` (R62), with its ignored data field. -/
  | stop (ignored : Byte)
  /-- `WRITE_BYTE b` (R67). -/
  | writeByte (b : Byte)
  /-- `RELEASE` (R85), with its ignored data field. -/
  | release (ignored : Byte)
deriving DecidableEq, Repr, Inhabited

/-- The `data` field of the command word that stands for the operation (R50). -/
def Instr.data : Instr → Byte
  | .start d => d
  | .stop d => d
  | .writeByte b => b
  | .release d => d

/-- The pseudo-instruction `FRAME c_a, c_b, [d_0, ..., d_(n-1)], c_c` (`30_encoding.md` R57, `42_frame_sequence.md`
R78). It is a host program, no command word; its operands are opaque bytes. -/
structure Frame where
  ca : Byte
  cb : Byte
  ds : List Byte
  cc : Byte
deriving DecidableEq, Repr, Inhabited

end Sys2Proof
end

