-- ==== Sys2Proof/WellFormed.lean ====
section
/-! DEFINITION. What a well-formed instruction, operand and FRAME is. -/

namespace Sys2Proof

/-- Every instruction is well formed: there is no illegal, reserved or hint encoding (`30_encoding.md` R54), every byte
is a legal operand of `WRITE_BYTE` and no command word faults (`60_exceptions.md` R90). The match names each
constructor so that a new one would have to be decided here. -/
def Instr.wellFormed : Instr → Bool
  | .start _ => true
  | .stop _ => true
  | .writeByte _ => true
  | .release _ => true

/-- The canonical form a host should use: `data = 0x00` in `START`, `STOP` and `RELEASE` (R53). It is advice to the
host; the engine treats every form alike. -/
def Instr.canonical : Instr → Bool
  | .start d => d == 0
  | .stop d => d == 0
  | .writeByte _ => true
  | .release d => d == 0

/-- A software value that fits the command word's operand, `0x00..0xFF` (R60, R116;
`93_implementation_defined.md` U10). -/
def operandInRange (v : Nat) : Bool := v < 256

/-- A bit pattern that is a command word: `CMD_BITS` bits and no more (R50). -/
def isCommandWord (w : Nat) : Bool := w < 2 ^ cmdBits

/-- `FRAME` takes one to four data bytes (R78). -/
def Frame.wellFormed (f : Frame) : Bool := 1 ≤ f.ds.length && f.ds.length ≤ 4

end Sys2Proof
end

