-- ==== Sys2Proof/Machine/Operands.lean ====
section
/-! DEFINITION. The one operand form of BBT-OPS: a byte, and its bits by their clock pulse. -/

namespace Sys2Proof.Machine

/-- Bit `i` of the operand, `(b >> i) & 1`: the bit sent in clock pulse `i` (`20_memory.md` R38, `41_byte_transfer.md`
R68). -/
def operandBit (b : Byte) (i : Nat) : Bool := b.getLsbD i

/-- The operand a software value stands for: itself if it is a byte; the command word cannot carry a wider one
(`30_encoding.md` R60, `93_implementation_defined.md` U10: refuse). -/
def byteOperand (v : Nat) : Option Byte := if operandInRange v then some (BitVec.ofNat 8 v) else none

end Sys2Proof.Machine
end

