-- ==== Sys2Proof/Machine/Flags.lean ====
section
/-! DEFINITION. The only status the block has: `BUSY` and the handshake of the command port (`10_state.md` R16, R20, R21;
`30_encoding.md` R55). There are no condition codes, no error flag and no acknowledgment flag. -/

namespace Sys2Proof.Machine

/-- `BUSY = (SEQ.OP ≠ IDLE)` (R16). -/
def State.busy (s : State) : Bool := s.seq.op != .idle

/-- `cmd_ready = !BUSY` (R55). -/
def State.cmdReady (s : State) : Bool := !s.busy

/-- `cmd_valid`: the host presents a word (R55). -/
def State.cmdValid (s : State) : Bool := !s.port.isEmpty

/-- `cmd[9:0]`: the word on the port, if one is presented (R55). -/
def State.cmd (s : State) : Option CmdWord := s.port.head?

end Sys2Proof.Machine
end

