-- ==== Sys2Proof/Machine/Lines.lean ====
section
/-! DEFINITION. The line function and the read of a line (`20_memory.md` R34, R35). -/

namespace Sys2Proof.Machine

/-- `CLK_LINE` (R34): the latch when driven, the environment's level when released. -/
def clkLine (e : Env) (p : Pins) : Level :=
  match p.clkOe with
  | .output => p.clkOut
  | .input => e.clkReleased

/-- `DIO_LINE` (R34): driven and not opposed, the latch; driven and opposed by the chip, an unspecified level, drawn from
the environment; released, the chip's level if it drives, else the pull-down's. -/
def dioLine (e : Env) (p : Pins) : Level :=
  match p.dioOe, e.chip with
  | .output, none => p.dioOut
  | .output, some l => if l = p.dioOut then p.dioOut else e.contended
  | .input, some l => l
  | .input, none => dioPull

/-- The level of a line (R34). -/
def lineLevel (e : Env) (p : Pins) : Line → Level
  | .clk => clkLine e p
  | .dio => dioLine e p

/-- `ReadLevel(pin)`: the resolved level of the line (R35). It is a function of the state and changes nothing. -/
def State.readLevel (s : State) (l : Line) : Level := lineLevel s.env s.pins l

end Sys2Proof.Machine
end

