-- ==== Sys2Proof/Machine/Ops.lean ====
section
/-! DEFINITION. The named operations every meaning is written with: the line primitives (`20_memory.md` R31 to R36), the
engine's two kinds of step, `Accept` and `Phase` (`10_state.md` R15, R17), and reset (`70_reset_and_hazards.md` R107,
R108). The block has no exception to take and none to return from (`60_exceptions.md` R89, R96). -/

namespace Sys2Proof.Machine

/-- `SetDir(pin, d)`: the output-enable bit is written, the latch keeps its value (R31). -/
def Pins.setDir (p : Pins) (l : Line) (d : Direction) : Pins :=
  match l with
  | .clk => { p with clkOe := d }
  | .dio => { p with dioOe := d }

/-- `WriteLevel(pin, l)`: the latch is written, the direction keeps its value (R32). -/
def Pins.writeLevel (p : Pins) (l : Line) (v : Level) : Pins :=
  match l with
  | .clk => { p with clkOut := v }
  | .dio => { p with dioOut := v }

/-- `Drive(pin, l)`: output-enable and latch together, as one change (R33). -/
def Pins.drive (p : Pins) (l : Line) (v : Level) : Pins :=
  match l with
  | .clk => { p with clkOe := .output, clkOut := v }
  | .dio => { p with dioOe := .output, dioOut := v }

/-- `Release(pin)` is `SetDir(pin, INPUT)` (R31). -/
def Pins.release (p : Pins) (l : Line) : Pins := p.setDir l .input

/-- The two pin states of a drive in the source's software form: direction first, then level, no wait between
(`70_reset_and_hazards.md` R119). The hardware has no such intermediate state (R33), so no step uses this. -/
def Pins.driveTwoCall (p : Pins) (l : Line) (v : Level) : List Pins :=
  [p.setDir l .output, (p.setDir l .output).writeLevel l v]

/-- The line primitives an operation's listing is made of (`00_scope.md` R8). -/
inductive Prim where
  | setDir (l : Line) (d : Direction)
  | writeLevel (l : Line) (v : Level)
  | drive (l : Line) (v : Level)
  | release (l : Line)
  | readLevel (l : Line)
deriving DecidableEq, Repr

/-- Drop a sampled level: written nowhere, tested by nothing (`41_byte_transfer.md` R72). -/
def State.discard (s : State) (_sample : Level) : State := s

/-- One primitive performed. Every one succeeds (`60_exceptions.md` R92). -/
def Prim.perform (a : Prim) (s : State) : State :=
  match a with
  | .setDir l d => { s with pins := s.pins.setDir l d }
  | .writeLevel l v => { s with pins := s.pins.writeLevel l v }
  | .drive l v => { s with pins := s.pins.drive l v }
  | .release l => { s with pins := s.pins.release l }
  | .readLevel l => s.discard (s.readLevel l)

/-- The primitives of one phase, performed as one change (R15). -/
def performAll (as : List Prim) (s : State) : State := as.foldl (fun t a => a.perform t) s

/-- `last(OP)`: the last phase of each operation (R14). -/
def SeqOp.last : SeqOp → Nat
  | .idle => 0
  | .start => 0
  | .stop => 2
  | .writeByte => 25
  | .release => 0

/-- The sequencer's name of an instruction's operation (R51). -/
def seqOpOf : Instr → SeqOp
  | .start _ => .start
  | .stop _ => .stop
  | .writeByte _ => .writeByte
  | .release _ => .release

/-- The position after phase `K`: `(IDLE, 0)` after the last one, `(OP, K + 1)` before it (R15). Positions past the last
phase are illegal (R14) and end the operation too.
DESIGN CHOICE (log entry 5). -/
def Seq.advance (q : Seq) : Seq := if q.op.last ≤ q.k then .idle else { q with k := q.k + 1 }

/-- `Accept`: `DATA <- c[7:0]`, `SEQ <- (op, 0)`, no pin register changes; the host's presented word is taken (R15,
R12, R55). R15 enables this for a presented word only.
DESIGN CHOICE (log entry 21): `op` and `d` are taken for the port's head, which is dropped whatever it is. -/
def State.accept (s : State) (op : SeqOp) (d : Byte) : State :=
  { s with data := d, seq := { op := op, k := 0 }, port := s.port.tail }

/-- The start of a phase: its pin writes are made and `DLY` is loaded with `DLY_CYCLES` (R15, R17). -/
def State.beginPhase (s : State) (as : List Prim) : State :=
  { performAll as s with dly := s.cfg.dlyCycles }

/-- One engine clock of `Wait()`: every pin register is held, `DLY` goes down to `left`, and the phase ends when it
reaches 0 (R17, R36). -/
def State.waitClock (s : State) (left : Nat) : State :=
  if left = 0 then { s with dly := 0, seq := s.seq.advance } else { s with dly := left }

/-- The next event of the engine for operation `op`, whose command word carries `d` and whose phases are `acts`:
idle, it accepts the command; running `op`, it starts the phase that is next or waits one clock of the phase it is in;
running another operation, the command is neither accepted nor lost and nothing changes (R15, R55).
DESIGN CHOICE (log entry 4): that last reading, for a command other than the one in progress.
DESIGN CHOICE (log entry 21): the command is taken for the one presented, so an idle engine accepts it also where the
port is empty or has another word at its head; `step` asks only for the head itself.
DEDUCED (log entry 3): `Wait()` is spread over the clocks of `DLY`. -/
def engineEvent (op : SeqOp) (d : Byte) (acts : Nat → Byte → List Prim) (s : State) :
    Host.Outcome State Fault Refusal :=
  if s.seq.op = .idle then .next (s.accept op d)
  else if s.seq.op = op then
    match s.dly with
    | 0 => .next (s.beginPhase (acts s.seq.k s.data))
    | left + 1 => .next (s.waitClock left)
  else .next s

/-- Reset: every register takes the value of R24, whatever the engine was doing; the inputs and the parameters are not
registers and keep their values, and a presented command is not accepted (R107, R108). -/
def State.applyReset (s : State) : State :=
  { s with pins := .atReset s.cfg, seq := .idle, data := 0, dly := 0 }

end Sys2Proof.Machine
end

