-- ==== Sys2Proof/Machine/ByteTransfer.lean ====
section
/-! DEFINITION. The byte transfer `WRITE_BYTE` (`41_byte_transfer.md` R67 to R77). -/

namespace Sys2Proof.Machine

/-- The data phase of a bit: a 1 is driven `HIGH` (R69), a 0 is left to the pull-down (R70). -/
def dataPhase (bit : Bool) : List Prim := if bit then [.drive .dio .high] else [.release .dio]

/-- The 26 phases of `WRITE_BYTE` (R67, R75): eight triples, clock low, data set, clock high, and the acknowledgment
slot, whose sample is taken in phase 25 and discarded (R72). -/
def writeByteActions (k : Nat) (data : Byte) : List Prim :=
  if 24 ≤ k then
    if k = 24 then [.drive .clk .low] else [.drive .clk .high, .readLevel .dio]
  else
    match k % 3 with
    | 0 => [.drive .clk .low]
    | 1 => dataPhase (operandBit data (k / 3))
    | _ => [.drive .clk .high]

/-- `WRITE_BYTE b` (R67). -/
def execWriteByte (b : Byte) (s : State) : Host.Outcome State Fault Refusal :=
  engineEvent .writeByte b writeByteActions s

end Sys2Proof.Machine
end

