-- ==== Sys2Proof/Machine/Framing.lean ====
section
/-! DEFINITION. The framing operations `START` and `STOP` (`40_framing.md` R61 to R66). -/

namespace Sys2Proof.Machine

/-- The phase of `START` (R61): the data line becomes an output at its remembered level. -/
def startActions (_k : Nat) (_data : Byte) : List Prim := [.setDir .dio .output]

/-- The three phases of `STOP` (R62). -/
def stopActions (k : Nat) (_data : Byte) : List Prim :=
  match k with
  | 0 => [.setDir .dio .output]
  | 1 => [.drive .clk .high]
  | _ => [.release .dio]

/-- `START` (R61). -/
def execStart (d : Byte) (s : State) : Host.Outcome State Fault Refusal :=
  engineEvent .start d startActions s

/-- `STOP` (R62). -/
def execStop (d : Byte) (s : State) : Host.Outcome State Fault Refusal :=
  engineEvent .stop d stopActions s

end Sys2Proof.Machine
end

