-- ==== Sys2Proof/Machine/SystemOps.lean ====
section
/-! DEFINITION. The system operation `RELEASE` (`43_system.md` R85 to R88). -/

namespace Sys2Proof.Machine

/-- The phase of `RELEASE` (R85): both lines released, the latches kept. -/
def releaseActions (_k : Nat) (_data : Byte) : List Prim := [.release .clk, .release .dio]

/-- `RELEASE` (R85). -/
def execRelease (d : Byte) (s : State) : Host.Outcome State Fault Refusal :=
  engineEvent .release d releaseActions s

end Sys2Proof.Machine
end

