-- ==== Sys2Proof/Machine/Dispatch.lean ====
section
/-! DEFINITION. The dispatch: one arm per constructor of `Instr`. -/

namespace Sys2Proof.Machine

/-- The engine's next event for instruction `i` (`10_state.md` R15). -/
def exec (i : Instr) (s : State) : Host.Outcome State Fault Refusal :=
  match i with
  | .start d => Sys2Proof.Machine.execStart d s
  | .stop d => Sys2Proof.Machine.execStop d s
  | .writeByte b => Sys2Proof.Machine.execWriteByte b s
  | .release d => Sys2Proof.Machine.execRelease d s

end Sys2Proof.Machine
end

