-- ==== Sys2Proof/Decode.lean ====
section
/-! DEFINITION. The command word `CMD10`: fields, decoder, encoder and the opcode table (`30_encoding.md` R50 to R54). -/

namespace Sys2Proof

/-- The `op` field, bits `[9:8]` (R50). -/
def opField (c : CmdWord) : BitVec 2 := c.extractLsb' 8 2

/-- The `data` field, bits `[7:0]`, taken as it stands: no extension, scaling or shift (R50, R52). -/
def dataField (c : CmdWord) : Byte := c.extractLsb' 0 8

/-- The decoder, total on the 1024 command words (R51, R54). -/
def decodeWord (c : CmdWord) : Instr :=
  if opField c = 0b00#2 then .start (dataField c)
  else if opField c = 0b01#2 then .stop (dataField c)
  else if opField c = 0b10#2 then .writeByte (dataField c)
  else .release (dataField c)

/-- Why a bit pattern is no command: it has a bit beyond the ten wires of the port (R50). -/
inductive DecodeReject where
  | widerThanCommandWord
deriving DecidableEq, Repr

/-- The decoder on any bit pattern: a pattern of at most `CMD_BITS` bits is a command word and decodes (R54); a wider one
cannot stand on the port and is rejected by name (R50). -/
def decode (w : Nat) : Except DecodeReject Instr :=
  if isCommandWord w then .ok (decodeWord (BitVec.ofNat 10 w)) else .error .widerThanCommandWord

/-- The host's entry to the decoder: the instruction whose bits are `w`, bit 0 least significant, of which the table
gives `nbits`; every bit above is 0. A command word is one word, so there is no byte order to settle. -/
def decodeTableWord (nbits w : Nat) : Option Instr :=
  match decode (w % 2 ^ nbits) with
  | .ok i => some i
  | .error _ => none

/-- The encoder: the command word of an instruction, `op` in `[9:8]` and `data` in `[7:0]` (R50, R51). -/
def encode : Instr → CmdWord
  | .start d => 0b00#2 ++ d
  | .stop d => 0b01#2 ++ d
  | .writeByte b => 0b10#2 ++ b
  | .release d => 0b11#2 ++ d

/-- A row of the opcode table: a word belongs to it when its bits under the mask are the match value. -/
structure OpcodeRow where
  mnemonic : String
  mask : CmdWord
  pattern : CmdWord
deriving DecidableEq, Repr

/-- The opcode table (R51). -/
def opcodeTable : List OpcodeRow :=
  [ { mnemonic := "START",      mask := 0x300, pattern := 0x000 },
    { mnemonic := "STOP",       mask := 0x300, pattern := 0x100 },
    { mnemonic := "WRITE_BYTE", mask := 0x300, pattern := 0x200 },
    { mnemonic := "RELEASE",    mask := 0x300, pattern := 0x300 } ]

/-- The table's name of an instruction (R49). -/
def Instr.mnemonic : Instr → String
  | .start _ => "START"
  | .stop _ => "STOP"
  | .writeByte _ => "WRITE_BYTE"
  | .release _ => "RELEASE"

/-- The word belongs to the row. -/
def OpcodeRow.holds (r : OpcodeRow) (c : CmdWord) : Bool := c &&& r.mask == r.pattern

end Sys2Proof
end

