-- ==== Sys2Proof/Machine/Port.lean ====
section
/-! DEFINITION. The command port and the other inputs: which instruction the engine runs next, and what the outside
world may do between two steps (`30_encoding.md` R55; `70_reset_and_hazards.md` R107, R114; `20_memory.md` R43). -/

namespace Sys2Proof.Machine

/-- The instruction in progress at a sequencer position, its operand held in `DATA` (R12, R43). -/
def inProgress (op : SeqOp) (data : Byte) : Option Instr :=
  match op with
  | .idle => none
  | .start => some (.start data)
  | .stop => some (.stop data)
  | .writeByte => some (.writeByte data)
  | .release => some (.release data)

/-- The instruction the engine's next event belongs to: the one in progress, or, when idle, the one the host presents
(R15). None when the engine is idle and nothing is presented. -/
def State.current (s : State) : Option Instr :=
  match s.seq.op with
  | .idle => s.cmd.map decodeWord
  | op => inProgress op s.data

/-- What the outside world does before a step: it sets the reset input, it may present further words after those
already presented, which it neither withdraws nor changes (R114), and the chip and the board do what they do. -/
structure Inputs where
  rst : Bool
  present : List CmdWord
  env : Env
deriving DecidableEq, Repr, Inhabited

/-- The state with the inputs applied; no register changes (R13, R15). -/
def State.withInputs (s : State) (i : Inputs) : State :=
  { s with rst := i.rst, port := s.port ++ i.present, env := i.env }

/-- The words presented when a bit pattern is put on the port: one, if it is a command word. -/
def presentedWord (w : Nat) : List CmdWord := if isCommandWord w then [BitVec.ofNat 10 w] else []

/-- The engine made ready to accept `w` at its next event: idle, out of reset, `w` presented ahead of what the host
would present (R15, R55). -/
def State.presenting (s : State) (w : Nat) : State :=
  { s with seq := .idle, dly := 0, rst := false, port := presentedWord w ++ s.port }

end Sys2Proof.Machine
end

