-- ==== Sys2Proof/Machine/Step.lean ====
section
/-! DEFINITION. One step of the machine: reset if `rst` is asserted, else the next event of the engine, else nothing. -/

namespace Sys2Proof.Machine

/-- One step. Reset wins over everything (`60_exceptions.md` R95, R108); with nothing in progress and nothing presented
every register keeps its value (`10_state.md` R15). -/
def step (s : State) : Host.Outcome State Fault Refusal :=
  if s.rst then .next s.applyReset
  else
    match s.current with
    | none => .next s
    | some i => exec i s

/-- `s` made ready to run the instruction whose bits are `w` at its next step: the block fetches nothing on its own
(`20_memory.md` R43), so the word is presented at the command port of an idle engine out of reset. -/
def State.withFetchWord (s : State) (nbits w : Nat) : State := s.presenting (w % 2 ^ nbits)

end Sys2Proof.Machine
end

