-- ==== Sys2Proof/Machine/Actions.lean ====
section
/-! DEFINITION. `actions(op, k, DATA)` of `10_state.md` R15: the phase function of all operations in one place. -/

namespace Sys2Proof.Machine

/-- `actions(op, k, DATA)` (R15); an idle engine has none. -/
def actions (op : SeqOp) (k : Nat) (data : Byte) : List Prim :=
  match op with
  | .idle => []
  | .start => startActions k data
  | .stop => stopActions k data
  | .writeByte => writeByteActions k data
  | .release => releaseActions k data

end Sys2Proof.Machine
end

