-- ==== Sys2Proof/Machine/FrameSequence.lean ====
section
/-! DEFINITION. The expansion of the pseudo-instruction FRAME (`42_frame_sequence.md` R78 to R81). -/

namespace Sys2Proof

/-- A bracket: `START`, the bytes in order, `STOP` (R79 to R81), each framing word canonical (R53). -/
def bracket (bs : List Byte) : List Instr := .start 0 :: (bs.map .writeByte ++ [.stop 0])

/-- The `9 + n` operations of `FRAME` (R78): brackets A, B and C. -/
def Frame.expand (f : Frame) : List Instr := bracket [f.ca] ++ bracket (f.cb :: f.ds) ++ bracket [f.cc]

/-- The command words of `FRAME` (R78). -/
def Frame.words (f : Frame) : List CmdWord := f.expand.map encode

/-- The bytes of `FRAME` in wire order (R78, R39). -/
def Frame.bytes (f : Frame) : List Byte := [f.ca, f.cb] ++ f.ds ++ [f.cc]

end Sys2Proof
end

