-- ==== Sys2Proof/Safety.lean ====
section
/-! DEFINITION. The terms statements are made in: runs, what an observer of the two lines sees of a run, the state an
operation leaves, the invariant, and the host's duties. -/

namespace Sys2Proof.Machine

/-- `n` steps, the inputs held as they stand. -/
def run : Nat → State → Host.Outcome State Fault Refusal
  | 0, s => .next s
  | n + 1, s =>
    match step s with
    | .next t => run n t
    | .fault r => .fault r
    | .refused r => .refused r

/-- `n` events of the engine for one instruction: its acceptance, then its phases. -/
def repeatExec (i : Instr) : Nat → State → Host.Outcome State Fault Refusal
  | 0, s => .next s
  | n + 1, s =>
    match exec i s with
    | .next t => repeatExec i n t
    | .fault r => .fault r
    | .refused r => .refused r

/-- One step after the outside world has set the inputs. -/
def stepUnder (i : Inputs) (s : State) : Host.Outcome State Fault Refusal := step (s.withInputs i)

/-- A run in which the outside world sets the inputs before every step. -/
def runUnder : List Inputs → State → Host.Outcome State Fault Refusal
  | [], s => .next s
  | i :: is, s =>
    match stepUnder i s with
    | .next t => runUnder is t
    | .fault r => .fault r
    | .refused r => .refused r

/-- The next step starts a phase: out of reset, an operation in progress, no wait under way (R15, R17). -/
def State.atPhaseStart (s : State) : Bool := !s.rst && (s.busy && s.dly == 0)

/-- The trace of `n` steps: the pin state each phase establishes, in order (`20_memory.md` R48). -/
def trace : Nat → State → List Pins
  | 0, _ => []
  | n + 1, s =>
    match step s with
    | .next t => if s.atPhaseStart then t.pins :: trace n t else trace n t
    | _ => []

/-- The trace of a run under inputs (R48). -/
def traceUnder : List Inputs → State → List Pins
  | [], _ => []
  | i :: is, s =>
    match stepUnder i s with
    | .next t => if (s.withInputs i).atPhaseStart then t.pins :: traceUnder is t else traceUnder is t
    | _ => []

/-- A state some run from reset reaches, for any parameters, any environment and any inputs on the way. -/
inductive Reachable : State → Prop where
  | reset (c : Config) (e : Env) : Reachable (State.resetWith c e)
  | step (s t : State) (i : Inputs) : Reachable s → stepUnder i s = .next t → Reachable t

/-- A primitive's effect on the pin registers alone; `ReadLevel` has none (`20_memory.md` R31 to R35). -/
def Prim.onPins (a : Prim) (p : Pins) : Pins :=
  match a with
  | .setDir l d => p.setDir l d
  | .writeLevel l v => p.writeLevel l v
  | .drive l v => p.drive l v
  | .release l => p.release l
  | .readLevel _ => p

/-- The effect of a phase's primitives on the pin registers. -/
def phasePins (as : List Prim) (p : Pins) : Pins := as.foldl (fun q a => a.onPins q) p

/-- The pin registers after the first `n` phases of an operation, from `p` (R15). -/
def pinsAfter (op : SeqOp) (data : Byte) : Nat → Pins → Pins
  | 0, p => p
  | n + 1, p => phasePins (actions op n data) (pinsAfter op data n p)

/-- The pin states that the first `n` phases of an operation establish, in order (R48). -/
def pinsTrace (op : SeqOp) (data : Byte) (n : Nat) (p : Pins) : List Pins :=
  (List.range n).map fun k => pinsAfter op data (k + 1) p

/-- The phases of the operation in progress whose pin writes have been made: `K` of them, and one more while the wait of
phase `K` is under way (R15, R17). -/
def State.phasesMade (s : State) : Nat := if s.dly = 0 then s.seq.k else s.seq.k + 1

/-- The clock line is driven `LOW`. -/
def Pins.clkDrivenLow (p : Pins) : Prop := p.clkOe = .output ∧ p.clkOut = .low

/-- What holds in every reachable state. -/
structure EngineInv (s : State) : Prop where
  /-- Idle, the engine is at `(IDLE, 0)` and no wait is under way (`10_state.md` R14, R17, R25). -/
  idle_at_rest : s.seq.op = .idle → s.seq.k = 0 ∧ s.dly = 0
  /-- `K ≤ last(OP)` (R14, R25). -/
  k_in_range : s.seq.k ≤ s.seq.op.last
  /-- `DLY` never exceeds the value it is loaded with (R17). -/
  dly_bounded : s.dly ≤ s.cfg.dlyCycles
  /-- The pin registers are what the phases made so far leave of the pin state the operation began with (R15). -/
  pins_follow : ∃ p, s.pins = pinsAfter s.seq.op s.data s.phasesMade p
  /-- Only inside a `WRITE_BYTE` is the clock driven `LOW`: completed operations leave it `HIGH` or released (R77). -/
  clk_not_low : s.seq.op ≠ .writeByte → ¬ s.pins.clkDrivenLow

/-- The table of phases per operation (`70_reset_and_hazards.md` R127). -/
def phaseCount : Instr → Nat
  | .start _ => 1
  | .stop _ => 3
  | .writeByte _ => 26
  | .release _ => 1

/-- Engine events from `Accept` to the end of the operation's last wait: the acceptance, and for each phase its start and
its `DLY_CYCLES` clocks. -/
def eventCount (c : Config) (i : Instr) : Nat := 1 + phaseCount i * (1 + c.dlyCycles)

/-- Engine events of a list of command words run one after the other. -/
def eventsOf (c : Config) (ws : List CmdWord) : Nat := (ws.map fun w => eventCount c (decodeWord w)).sum

/-- The table of pin registers after each operation completes (`10_state.md` R27). -/
def postPins (i : Instr) (old : Pins) : Pins :=
  match i with
  | .start _ => { clkOe := old.clkOe, clkOut := old.clkOut, dioOe := .output, dioOut := old.dioOut }
  | .stop _ => { clkOe := .output, clkOut := .high, dioOe := .input, dioOut := old.dioOut }
  | .writeByte b =>
    { clkOe := .output, clkOut := .high, dioOe := if b.getLsbD 7 then .output else .input,
      dioOut := if b ≠ 0 then .high else old.dioOut }
  | .release _ => { clkOe := .input, clkOut := old.clkOut, dioOe := .input, dioOut := old.dioOut }

/-- The pin registers after a list of command words (R27, R45). -/
def postPinsAll (ws : List CmdWord) (p : Pins) : Pins := ws.foldl (fun q w => postPins (decodeWord w) q) p

/-- `DATA` after a list of command words: the last word's field (R12). -/
def lastData (ws : List CmdWord) (d : Byte) : Byte := ws.foldl (fun _ w => dataField w) d

/-- The trace an operation's listing gives from a pin state (R48). -/
def opTrace (i : Instr) (p : Pins) : List Pins := pinsTrace (seqOpOf i) i.data (phaseCount i) p

/-- The trace of a list of command words: their listings one after the other, nothing between (R45, R48). -/
def programTrace : List CmdWord → Pins → List Pins
  | [], _ => []
  | w :: ws, p => opTrace (decodeWord w) p ++ programTrace ws (postPins (decodeWord w) p)

/-- What an observer reads on the data line at the rising clock edges of a trace: at each pair of neighbouring pin states
whose clock line goes from `LOW` to `HIGH`, the data level after the edge (`41_byte_transfer.md` R76). -/
def risingReads (e : Env) : List Pins → List Level
  | p :: q :: rest =>
    if clkLine e p = .low ∧ clkLine e q = .high then dioLine e q :: risingReads e (q :: rest)
    else risingReads e (q :: rest)
  | _ => []

/-- The host's bracket discipline (`70_reset_and_hazards.md` R115), read from left to right with `isOpen` saying whether
a bracket is open: no byte outside a bracket, no `START` inside one, and none left open at the end.
DESIGN CHOICE (log entry 20): a `STOP` with no bracket open and a `RELEASE` inside a bracket are rejected too. R115 names
neither as a breach, and R111 lets a host issue one `STOP` before its first bracket. -/
def bracketed : Bool → List Instr → Bool
  | isOpen, [] => !isOpen
  | isOpen, .start _ :: is => !isOpen && bracketed true is
  | isOpen, .stop _ :: is => isOpen && bracketed false is
  | isOpen, .writeByte _ :: is => isOpen && bracketed true is
  | isOpen, .release _ :: is => !isOpen && bracketed false is

end Sys2Proof.Machine
end

