-- ==== Sys2Proof/Certificates/Slice0/Obligations.lean ====
section
/-! DEFINITION. The statements for the provers. OBLIGATIONS.json says of each which rule of the spec it formalises.
Every statement holds for every value of the OPEN parameters (`State.cfg`) and of the environment (`State.env`); none
rests on the values `State.reset` names for them (log entries 1 and 2). -/

open Sys2Proof Sys2Proof.Machine

/-- The decode table of `95_test_vectors.md` 2.1. -/
def Obligations.DecodeSampleWords : Prop :=
  decode 0x000 = .ok (.start 0x00) ∧ decode 0x0FF = .ok (.start 0xFF) ∧
  decode 0x100 = .ok (.stop 0x00) ∧ decode 0x1A5 = .ok (.stop 0xA5) ∧
  decode 0x200 = .ok (.writeByte 0x00) ∧ decode 0x240 = .ok (.writeByte 0x40) ∧
  decode 0x2FF = .ok (.writeByte 0xFF) ∧
  decode 0x300 = .ok (.release 0x00) ∧ decode 0x3FF = .ok (.release 0xFF)

/-- R51, R52: the two `op` bits select the operation by the table's match under mask `0x300`, the `data` field is the
low eight bits as they stand, and the four cases are all there are. -/
def Obligations.OpFieldSelectsOperation : Prop :=
  ∀ c : CmdWord, ∃ d : Byte, d.toNat = c.toNat % 256 ∧
    (c &&& 0x300 = 0x000 → decodeWord c = .start d) ∧
    (c &&& 0x300 = 0x100 → decodeWord c = .stop d) ∧
    (c &&& 0x300 = 0x200 → decodeWord c = .writeByte d) ∧
    (c &&& 0x300 = 0x300 → decodeWord c = .release d) ∧
    (c &&& 0x300 = 0x000 ∨ c &&& 0x300 = 0x100 ∨ c &&& 0x300 = 0x200 ∨ c &&& 0x300 = 0x300)

/-- R54: all 1024 words decode to an operation, each to one that has the word for its encoding, and no word traps. The
last clause, that every wider pattern is rejected by name, is the model's choice (log entry 10). -/
def Obligations.EveryCommandWordDecodes : Prop :=
  (∀ n, n < 1024 → ∃ i, decode n = .ok i ∧ (encode i).toNat = n ∧ ∀ s : State, ∃ t, exec i s = .next t) ∧
  (∀ n, 1024 ≤ n → decode n = .error .widerThanCommandWord)

/-- R50 to R53: decoding the encoding of any well-formed instruction gives it back, with every operand, through the
decoder and through the host's entry to it. -/
def Obligations.EncodeThenDecodeGivesItBack : Prop :=
  ∀ i : Instr, i.wellFormed = true →
    decode (encode i).toNat = .ok i ∧ decodeTableWord 16 (encode i).toNat = some i

/-- R53: in `START`, `STOP` and `RELEASE` the data field changes nothing but the value copied to `DATA` at acceptance,
and nothing reads it there while the operation runs; the canonical words are those with the field 0. That this holds of
an instruction that is not the word presented, or not the one in progress, is the model's choice (log entries 21, 4). -/
def Obligations.FramingDataFieldIgnored : Prop :=
  encode (.start 0) = 0x000 ∧ encode (.stop 0) = 0x100 ∧ encode (.release 0) = 0x300 ∧
  ∀ mk ∈ [Instr.start, Instr.stop, Instr.release],
    (∀ (d d' : Byte) (s t : State), exec (mk d) s = .next t →
      exec (mk d') s = .next (if s.seq.op = .idle then { t with data := d' } else t)) ∧
    (∀ (d : Byte) (s t : State), s.seq.op = .idle → exec (mk d) s = .next t → t.data = d) ∧
    (∀ (d : Byte) (s t : State) (x : Byte), s.seq.op ≠ .idle → exec (mk d) s = .next t →
      exec (mk d) { s with data := x } = .next { t with data := x })

/-- A step runs the decoded instruction (R15, R55): out of reset and idle, the one whose word the host presents; busy,
the one in progress. Two clauses are the model's choice: that with neither a step answers the same state (log entry 19;
R15 says only that the engine then has no step), and the last one, what `withFetchWord` makes of any state, a busy one or
one held in reset included, and that the very next step takes its word (log entry 8). -/
def Obligations.StepRunsTheCommand : Prop :=
  (∀ (s : State) (n : Nat) (i : Instr) (rest : List CmdWord), s.rst = false → s.seq.op = .idle →
    decode n = .ok i → s.port = BitVec.ofNat 10 n :: rest → step s = exec i s) ∧
  (∀ s : State, s.rst = false → s.seq.op = .idle → s.port = [] → step s = .next s) ∧
  (∀ (s : State) (i : Instr), s.rst = false → seqOpOf i = s.seq.op → i.data = s.data → step s = exec i s) ∧
  (∀ (s : State) (nbits w : Nat) (i : Instr), decodeTableWord nbits w = some i →
    step (s.withFetchWord nbits w) = exec i (s.withFetchWord nbits w) ∧
    exec i (s.withFetchWord nbits w) = .next
      { pins := s.pins, seq := ⟨seqOpOf i, 0⟩, data := i.data, dly := 0, cfg := s.cfg, rst := false,
        port := s.port, env := s.env })

/-- R15, `Accept`: an idle engine takes the command; `DATA` gets the data field whatever the operation (R12), no pin
register changes, and the host's word is taken from the port. That the instruction is accepted also where the
port is empty or has another word at its head is the model's choice (log entry 21). -/
def Obligations.AcceptTakesTheCommand : Prop :=
  ∀ s : State, s.seq.op = .idle →
    (∀ d, exec (.start d) s = .next { s with data := d, seq := ⟨.start, 0⟩, port := s.port.tail }) ∧
    (∀ d, exec (.stop d) s = .next { s with data := d, seq := ⟨.stop, 0⟩, port := s.port.tail }) ∧
    (∀ b, exec (.writeByte b) s = .next { s with data := b, seq := ⟨.writeByte, 0⟩, port := s.port.tail }) ∧
    (∀ d, exec (.release d) s = .next { s with data := d, seq := ⟨.release, 0⟩, port := s.port.tail })

/-- R61: the phase of `START` makes the data line an output and writes no latch and nothing of the clock line. -/
def Obligations.StartPhase : Prop :=
  ∀ (d : Byte) (s : State), s.seq = ⟨.start, 0⟩ → s.dly = 0 →
    exec (.start d) s = .next { s with pins := { s.pins with dioOe := .output }, dly := s.cfg.dlyCycles }

/-- R62: the three phases of `STOP`. -/
def Obligations.StopPhases : Prop :=
  ∀ (d : Byte) (s : State), s.seq.op = .stop → s.dly = 0 →
    (s.seq.k = 0 → exec (.stop d) s =
      .next { s with pins := { s.pins with dioOe := .output }, dly := s.cfg.dlyCycles }) ∧
    (s.seq.k = 1 → exec (.stop d) s =
      .next { s with pins := { s.pins with clkOe := .output, clkOut := .high }, dly := s.cfg.dlyCycles }) ∧
    (s.seq.k = 2 → exec (.stop d) s =
      .next { s with pins := { s.pins with dioOe := .input }, dly := s.cfg.dlyCycles })

/-- R67 to R73: the 26 phases of `WRITE_BYTE`, from the byte held in `DATA`. -/
def Obligations.WriteBytePhases : Prop :=
  ∀ (b : Byte) (s : State), s.seq.op = .writeByte → s.dly = 0 →
    (∀ i, i < 8 →
      (s.seq.k = 3 * i → exec (.writeByte b) s =
        .next { s with pins := { s.pins with clkOe := .output, clkOut := .low }, dly := s.cfg.dlyCycles }) ∧
      (s.seq.k = 3 * i + 1 → s.data.getLsbD i = true → exec (.writeByte b) s =
        .next { s with pins := { s.pins with dioOe := .output, dioOut := .high }, dly := s.cfg.dlyCycles }) ∧
      (s.seq.k = 3 * i + 1 → s.data.getLsbD i = false → exec (.writeByte b) s =
        .next { s with pins := { s.pins with dioOe := .input }, dly := s.cfg.dlyCycles }) ∧
      (s.seq.k = 3 * i + 2 → exec (.writeByte b) s =
        .next { s with pins := { s.pins with clkOe := .output, clkOut := .high }, dly := s.cfg.dlyCycles })) ∧
    (s.seq.k = 24 → exec (.writeByte b) s =
      .next { s with pins := { s.pins with clkOe := .output, clkOut := .low }, dly := s.cfg.dlyCycles }) ∧
    (s.seq.k = 25 → exec (.writeByte b) s =
      .next { s with pins := { s.pins with clkOe := .output, clkOut := .high }, dly := s.cfg.dlyCycles })

/-- R85: the phase of `RELEASE` releases both lines and writes no latch. -/
def Obligations.ReleasePhase : Prop :=
  ∀ (d : Byte) (s : State), s.seq = ⟨.release, 0⟩ → s.dly = 0 →
    exec (.release d) s =
      .next { s with pins := { s.pins with clkOe := .input, dioOe := .input }, dly := s.cfg.dlyCycles }

/-- R15, R17: while a wait is under way an operation holds every register but `DLY`, which counts down; at 0 the position
moves on, to the next phase or, after the last one (the phase counts of R127), to `(IDLE, 0)`. -/
def Obligations.WaitCountsDown : Prop :=
  ∀ (i : Instr) (s : State) (n : Nat), s.seq.op = seqOpOf i → s.dly = n + 1 →
    (0 < n → exec i s = .next { s with dly := n }) ∧
    (n = 0 → s.seq.k + 1 < phaseCount i →
      exec i s = .next { s with dly := 0, seq := ⟨s.seq.op, s.seq.k + 1⟩ }) ∧
    (n = 0 → s.seq.k + 1 = phaseCount i → exec i s = .next { s with dly := 0, seq := ⟨.idle, 0⟩ })

/-- The model's choice (log entry 4) for R55 at the level of one instruction: an instruction other than the one in
progress is neither accepted nor lost, and nothing changes. `step` never asks for this. -/
def Obligations.CommandHeldWhileAnotherRuns : Prop :=
  ∀ (i : Instr) (s : State), s.seq.op ≠ .idle → s.seq.op ≠ seqOpOf i → exec i s = .next s

/-- The frame of the four instructions, and of a step: what they leave unchanged. -/
def Obligations.ExecFrame : Prop :=
  (∀ (i : Instr) (s t : State), exec i s = .next t →
    t.cfg = s.cfg ∧ t.rst = s.rst ∧ t.env = s.env ∧
    (t.pins ≠ s.pins → s.seq.op = seqOpOf i ∧ s.dly = 0) ∧
    (s.seq.op ≠ .idle → t.data = s.data ∧ t.port = s.port) ∧
    (s.seq.op = .idle → t.dly = s.dly) ∧
    ((∃ d, i = .start d) → t.pins.clkOe = s.pins.clkOe ∧ t.pins.clkOut = s.pins.clkOut ∧
      t.pins.dioOut = s.pins.dioOut) ∧
    ((∃ d, i = .stop d) → t.pins.dioOut = s.pins.dioOut) ∧
    ((∃ d, i = .release d) → t.pins.clkOut = s.pins.clkOut ∧ t.pins.dioOut = s.pins.dioOut)) ∧
  (∀ s t : State, step s = .next t →
    t.cfg = s.cfg ∧ t.rst = s.rst ∧ t.env = s.env ∧ (t.port = s.port ∨ ∃ w, s.port = w :: t.port))

/-- R27: an instruction run from its acceptance to the end of its last wait leaves the pin registers as the table says,
the engine idle (R15), the field in `DATA` (R12), the word taken from the port (R55), and everything else as it was. The
exact number of events is the model's (log entry 3), and so is that the port need not present the instruction's own word
(log entry 21). -/
def Obligations.OperationPostState : Prop :=
  ∀ (i : Instr) (s : State), s.seq.op = .idle → s.dly = 0 →
    repeatExec i (eventCount s.cfg i) s = .next
      { pins := postPins i s.pins, seq := ⟨.idle, 0⟩, data := i.data, dly := 0, cfg := s.cfg, rst := s.rst,
        port := s.port.tail, env := s.env }

/-- R15, R17: the start of a phase and the `DLY_CYCLES` clocks of its wait make up the rule's `Phase`: the actions on the
pin registers as one change, then the next position. That they are `1 + DLY_CYCLES` steps is the model's (log entry
3). -/
def Obligations.PhaseIsOneChangeThenWait : Prop :=
  ∀ s : State, s.atPhaseStart = true → s.seq.k ≤ s.seq.op.last →
    run (1 + s.cfg.dlyCycles) s = .next
      { s with
        pins := phasePins (actions s.seq.op s.seq.k s.data) s.pins
        seq := if s.seq.k = s.seq.op.last then ⟨.idle, 0⟩ else ⟨s.seq.op, s.seq.k + 1⟩ }

/-- R36, R25 item 4: after a phase starts, whatever the outside world does short of reset, all four pin registers are held
for `DLY_CYCLES` clocks, during which no further phase starts. That a clock of the wait is one step is the model's (log
entry 3). -/
def Obligations.WaitHoldsPins : Prop :=
  ∀ (s t : State) (is : List Inputs), s.atPhaseStart = true → step s = .next t →
    is.length ≤ s.cfg.dlyCycles → (∀ i ∈ is, i.rst = false) →
    ∃ u, runUnder is t = .next u ∧ u.pins = t.pins ∧ (is.length < s.cfg.dlyCycles → u.atPhaseStart = false)

/-- R43, R55: while an operation is in progress, what stands at the port makes no difference, and it stays there. -/
def Obligations.PortIgnoredWhileBusy : Prop :=
  ∀ (s t : State) (p : List CmdWord), s.rst = false → s.busy = true → step s = .next t →
    t.port = s.port ∧ step { s with port := p } = .next { t with port := p }

/-- R107, R108: while `rst` is asserted a step gives every register its reset value, in whatever position the engine is,
and accepts nothing. -/
def Obligations.ResetRegisters : Prop :=
  ∀ s : State, s.rst = true → ∃ t, step s = .next t ∧ t.busy = false ∧ t =
    { s with pins := ⟨.input, .low, .input, s.cfg.dioOutReset⟩, seq := ⟨.idle, 0⟩, data := 0x00, dly := 0 }

/-- R24: the reset values, for any parameters. `State.reset` is such a state; that `rst` is released and that nothing is
presented is R107 and R21. -/
def Obligations.ResetStateValues : Prop :=
  (∀ c e, (State.resetWith c e).pins = ⟨.input, .low, .input, c.dioOutReset⟩ ∧
    (State.resetWith c e).seq = ⟨.idle, 0⟩ ∧ (State.resetWith c e).data = 0x00 ∧
    (State.resetWith c e).dly = 0 ∧ (State.resetWith c e).busy = false ∧
    (State.resetWith c e).rst = false ∧ (State.resetWith c e).port = []) ∧
  (∃ c e, State.reset = State.resetWith c e)

/-- The invariant holds after reset, for any parameters and environment. -/
def Obligations.ResetMeetsInv : Prop := ∀ c e, EngineInv (State.resetWith c e)

/-- Every step keeps the invariant, in every state that meets it and whatever the outside world does before the step. -/
def Obligations.StepKeepsInv : Prop :=
  (∀ s t : State, EngineInv s → step s = .next t → EngineInv t) ∧
  (∀ (s t : State) (i : Inputs), EngineInv s → stepUnder i s = .next t → EngineInv t)

/-- R25: what holds in every reachable state: `(IDLE, 0)` at rest, positions in range (the table of R14), the data latch
never back from 1 but by reset, and pin registers that change only at the start of a phase or at reset. -/
def Obligations.ReachableStatesAreLegal : Prop :=
  ∀ s : State, Reachable s →
    (s.seq.op = .idle → s.seq.k = 0 ∧ s.dly = 0 ∧ s.busy = false) ∧
    (match s.seq.op with
      | .idle => s.seq.k = 0
      | .start => s.seq.k = 0
      | .stop => s.seq.k ≤ 2
      | .writeByte => s.seq.k ≤ 25
      | .release => s.seq.k = 0) ∧
    s.dly ≤ s.cfg.dlyCycles ∧
    (∀ (i : Inputs) (t : State), stepUnder i s = .next t →
      (i.rst = false → s.pins.dioOut = .high → t.pins.dioOut = .high) ∧
      (t.pins ≠ s.pins → i.rst = true ∨ (s.busy = true ∧ s.dly = 0)))

/-- R89, R90: no operation can fail in any state, no step stops, and the table of causes is empty. -/
def Obligations.NothingEverFaults : Prop :=
  (∀ (i : Instr) (s : State), ∃ t, exec i s = .next t) ∧ (∀ s : State, ∃ t, step s = .next t) ∧ (Fault → False)

/-- R18, R69: out of reset the data latch is written in one place, the data phase of a 1 bit, and only to 1. -/
def Obligations.DataLatchWrittenOnlyByOneBits : Prop :=
  ∀ s t : State, s.rst = false → step s = .next t → t.pins.dioOut ≠ s.pins.dioOut →
    s.seq.op = .writeByte ∧ s.dly = 0 ∧ t.pins.dioOut = .high ∧ t.pins.dioOe = .output ∧
    ∃ i, i < 8 ∧ s.seq.k = 3 * i + 1 ∧ s.data.getLsbD i = true

/-- R19: the clock latch of a released clock line never reaches the line: two states that differ only in it step to
states that are equal, or that differ only in it with the clock still released; the lines look alike. -/
def Obligations.ReleasedClockLatchNeverShows : Prop :=
  ∀ (s t : State) (l : Level), s.pins.clkOe = .input → step s = .next t →
    ∃ u, step { s with pins := { s.pins with clkOut := l } } = .next u ∧
      (u = t ∨ (t.pins.clkOe = .input ∧ u = { t with pins := { t.pins with clkOut := l } })) ∧
      (∀ e, clkLine e u.pins = clkLine e t.pins ∧ dioLine e u.pins = dioLine e t.pins)

/-- R48, R72, R91: two runs that see the same resets and commands and differ at will in what the chip and the board do
have the same trace and end with the same registers. -/
def Obligations.ChipNeverMatters : Prop :=
  ∀ (is js : List Inputs) (s t : State),
    is.map (fun i => (i.rst, i.present)) = js.map (fun j => (j.rst, j.present)) →
    s.pins = t.pins → s.seq = t.seq → s.data = t.data → s.dly = t.dly → s.cfg = t.cfg → s.port = t.port →
    traceUnder is s = traceUnder js t ∧
    ∃ u v, runUnder is s = .next u ∧ runUnder js t = .next v ∧
      u.pins = v.pins ∧ u.seq = v.seq ∧ u.data = v.data ∧ u.dly = v.dly ∧ u.port = v.port

/-- R130: out of reset an operation in progress ends, within the phases of the longest one, and takes nothing from the
port on the way. The bound counts steps, so it rests on the model's grain (log entry 3). -/
def Obligations.BusyFallsInBoundedTime : Prop :=
  ∀ s : State, EngineInv s → s.rst = false → s.busy = true →
    ∃ n t, n ≤ 26 * (1 + s.cfg.dlyCycles) ∧ run n s = .next t ∧ t.busy = false ∧ t.port = s.port

/-- R16: `BUSY` is `SEQ.OP ≠ IDLE`; it rises at an acceptance and falls when the last phase's wait ends, or at reset. -/
def Obligations.BusyFollowsThePosition : Prop :=
  (∀ s : State, s.busy = decide (s.seq.op ≠ .idle) ∧ s.cmdReady = !s.busy) ∧
  (∀ s t : State, step s = .next t → s.busy = false → t.busy = true →
    s.rst = false ∧ ∃ w, s.port = w :: t.port ∧ t.seq = ⟨seqOpOf (decodeWord w), 0⟩) ∧
  (∀ s t : State, EngineInv s → step s = .next t → s.busy = true → t.busy = false →
    s.rst = true ∨ (s.dly = 1 ∧ s.seq.k = s.seq.op.last))

/-- R45, R41, R65: the commands the host presents run one after the other, in order, each to its end and whatever their
order, and leave the pin registers as their tables composed say. The exact number of steps is the model's: a phase is
spread over steps (log entry 3), and a waiting command is accepted at the very next step, where R95 allows that cycle or
the next (log entry 18). -/
def Obligations.ProgramPostState : Prop :=
  ∀ (ws rest : List CmdWord) (s : State), s.rst = false → s.seq = ⟨.idle, 0⟩ → s.dly = 0 →
    s.port = ws ++ rest →
    run (eventsOf s.cfg ws) s = .next
      { s with pins := postPinsAll ws s.pins, data := lastData ws s.data, port := rest }

/-- R45, R46, R48, R127: the trace of a run is the listings of its commands one after the other, nothing skipped, merged
or put between, so its length is the sum of their phase counts. The number of steps the trace is taken over is the
model's (log entries 3 and 18). -/
def Obligations.ProgramTraceIsTheListings : Prop :=
  ∀ (ws rest : List CmdWord) (s : State), s.rst = false → s.seq = ⟨.idle, 0⟩ → s.dly = 0 →
    s.port = ws ++ rest →
    trace (eventsOf s.cfg ws) s = programTrace ws s.pins ∧
    (trace (eventsOf s.cfg ws) s).length = (ws.map fun w => phaseCount (decodeWord w)).sum

/-- R78: the command words of `FRAME`. -/
def Obligations.FrameWords : Prop :=
  ∀ f : Frame, f.words =
    [0x000, 0x200 ||| f.ca.setWidth 10, 0x100, 0x000, 0x200 ||| f.cb.setWidth 10] ++
      f.ds.map (fun d => 0x200 ||| d.setWidth 10) ++ [0x100, 0x000, 0x200 ||| f.cc.setWidth 10, 0x100]

/-- R83: the counts of `FRAME` with `n` data bytes. -/
def Obligations.FrameCounts : Prop :=
  ∀ f : Frame, f.wellFormed = true →
    f.expand.length = 9 + f.ds.length ∧
    f.expand.countP (fun i => seqOpOf i == .start) = 3 ∧
    f.expand.countP (fun i => seqOpOf i == .stop) = 3 ∧
    f.expand.countP (fun i => seqOpOf i == .writeByte) = 3 + f.ds.length ∧
    (f.expand.map phaseCount).sum = 90 + 26 * f.ds.length

/-- R78, R83: `FRAME` run on an idle engine leaves the idle bus `(1, 1, 0, L')`, with `L' = 1` if any of its bytes is
non-zero, after `90 + 26n` phases. The exact number of steps is the model's (log entries 3 and 18). -/
def Obligations.FrameRun : Prop :=
  ∀ (f : Frame) (rest : List CmdWord) (s : State), f.wellFormed = true → s.rst = false →
    s.seq = ⟨.idle, 0⟩ → s.dly = 0 → s.port = f.words ++ rest →
    run (eventsOf s.cfg f.words) s = .next
      { s with
        pins := ⟨.output, .high, .input, if f.bytes.any (· != 0) then .high else s.pins.dioOut⟩
        data := 0x00
        port := rest } ∧
    (trace (eventsOf s.cfg f.words) s).length = 90 + 26 * f.ds.length

/-- R115: the host program `FRAME` keeps the bracket discipline, whatever its bytes. `bracketed` is stricter than R115 on
a stray `STOP` and on a `RELEASE` inside a bracket, which is the model's choice (log entry 20). -/
def Obligations.FrameKeepsBrackets : Prop := ∀ f : Frame, bracketed false f.expand = true

/-- R76, R73: an observer that reads the data line at the rising clock edges of a `WRITE_BYTE`, the chip not driving,
reads the eight bits of the byte, least significant first, and in the acknowledgment slot bit 7 again. That it reads
right after the edge is the model's choice (log entry 17), and so is the number of steps (log entry 3). -/
def Obligations.ObserverRecoversTheByte : Prop :=
  ∀ (b : Byte) (rest : List CmdWord) (s : State) (e : Env), s.rst = false →
    s.seq = ⟨.idle, 0⟩ → s.dly = 0 → s.port = encode (.writeByte b) :: rest →
    e.chip = none →
    risingReads e (trace (eventCount s.cfg (.writeByte b)) s) =
      (List.range 8).map (fun i => Level.ofBool (b.getLsbD i)) ++ [Level.ofBool (b.getLsbD 7)]

/-- R73: during the acknowledgment slot the data line is as bit 7 left it: driven `HIGH`, or released. -/
def Obligations.AckSlotKeepsDataLine : Prop :=
  ∀ s : State, EngineInv s → s.seq.op = .writeByte → 24 ≤ s.seq.k →
    (s.data.getLsbD 7 = true → s.pins.dioOe = .output ∧ s.pins.dioOut = .high) ∧
    (s.data.getLsbD 7 = false → s.pins.dioOe = .input)

/-- R70, R120: once the first data phase of a `WRITE_BYTE` has started, the engine never drives the data line `LOW`: a
driven data line is `HIGH`, and with the chip not driving, a `LOW` on it is the pull-down's on a released line. -/
def Obligations.ZeroIsNeverDriven : Prop :=
  ∀ (s : State) (e : Env), EngineInv s → s.seq.op = .writeByte → (2 ≤ s.seq.k ∨ (s.seq.k = 1 ∧ 0 < s.dly)) →
    (s.pins.dioOe = .output → s.pins.dioOut = .high) ∧
    (e.chip = none → dioLine e s.pins = .low → s.pins.dioOe = .input)

/-- R68: a `WRITE_BYTE` changes the data line only while the clock is driven `LOW`. -/
def Obligations.DataMovesOnlyUnderLowClock : Prop :=
  ∀ s t : State, EngineInv s → s.rst = false → s.seq.op = .writeByte → step s = .next t →
    (t.pins.dioOe ≠ s.pins.dioOe ∨ t.pins.dioOut ≠ s.pins.dioOut) →
    s.pins.clkDrivenLow ∧ t.pins.clkDrivenLow

/-- R34: the line function; the contended level and the released clock's are whatever the environment makes them. -/
def Obligations.LineFunction : Prop :=
  ∀ (e : Env) (p : Pins),
    (p.clkOe = .output → clkLine e p = p.clkOut) ∧
    (p.clkOe = .input → clkLine e p = e.clkReleased) ∧
    (p.dioOe = .output → e.chip = none ∨ e.chip = some p.dioOut → dioLine e p = p.dioOut) ∧
    (∀ l, p.dioOe = .input → e.chip = some l → dioLine e p = l) ∧
    (p.dioOe = .input → e.chip = none → dioLine e p = .low) ∧
    (∀ l, p.dioOe = .output → e.chip = some l → l ≠ p.dioOut → dioLine e p = e.contended)

/-- R35: `ReadLevel` gives the line's level and changes nothing; the listings read a line only in the acknowledgment
slot, in phase 25 (R72), on `DIO`. The last clause, that the sample is taken there exactly once, is the model's choice
(log entry 11): R35 says at most once, and R72 lets a model omit it. -/
def Obligations.ReadLevelOnlyInAckSlot : Prop :=
  (∀ (s : State) l, s.readLevel l = lineLevel s.env s.pins l ∧ (Prim.readLevel l).perform s = s) ∧
  (∀ op k d l, k ≤ op.last → Prim.readLevel l ∈ actions op k d → op = .writeByte ∧ k = 25 ∧ l = .dio) ∧
  (∀ d, (writeByteActions 25 d).count (.readLevel .dio) = 1)

/-- From R31 to R34: the pin-register writes, `Drive` as one change being the spec's own reading of the source (R33; log
entry 13), and, in an environment whose chip does not drive, what two of them do to the lines: an output made so shows
its latch, a level written to a released line does not show. No listing writes a level alone. That a released line
keeps its level also where the chip drives (R32) follows from `LineFunction`. -/
def Obligations.PinPrimitives : Prop :=
  (∀ (p : Pins) (d : Direction) (v : Level),
    p.setDir .clk d = { p with clkOe := d } ∧ p.setDir .dio d = { p with dioOe := d } ∧
    p.writeLevel .clk v = { p with clkOut := v } ∧ p.writeLevel .dio v = { p with dioOut := v } ∧
    p.drive .clk v = { p with clkOe := .output, clkOut := v } ∧
    p.drive .dio v = { p with dioOe := .output, dioOut := v } ∧
    p.release .clk = { p with clkOe := .input } ∧ p.release .dio = { p with dioOe := .input }) ∧
  (∀ (p : Pins) (e : Env) (v : Level), e.chip = none →
    clkLine e (p.setDir .clk .output) = p.clkOut ∧ dioLine e (p.setDir .dio .output) = p.dioOut ∧
    (p.clkOe = .input → clkLine e (p.writeLevel .clk v) = clkLine e p) ∧
    (p.dioOe = .input → dioLine e (p.writeLevel .dio v) = dioLine e p)) ∧
  (∀ op k d l v, Prim.writeLevel l v ∉ actions op k d)

/-- R119: the software form's two calls end where `Drive` ends; between them, with the latch still 0, stands the pin state
`(1, 0, 1, 0)`, whose data level is the one an observer saw before, the chip not driving. -/
def Obligations.TwoCallDriveShowsNoEdge : Prop :=
  ∀ (p : Pins) (e : Env), p.clkDrivenLow → p.dioOut = .low → e.chip = none →
    p.driveTwoCall .dio .high = [⟨.output, .low, .output, .low⟩, p.drive .dio .high] ∧
    dioLine e ⟨.output, .low, .output, .low⟩ = dioLine e p

/-- R66, R123: the lines around a bracket, from the idle bus with latch `L` and the chip not driving: `START` shows `L`
on the data line (a rise or nothing), `STOP` shows `L`, `L` and then the released `LOW` (a fall or nothing), all with
the clock `HIGH`. The number of steps is the model's (log entry 3). -/
def Obligations.BracketEdges : Prop :=
  ∀ (s : State) (e : Env) (d : Byte) (rest : List CmdWord), s.rst = false → s.seq = ⟨.idle, 0⟩ → s.dly = 0 →
    e.chip = none →
    s.pins.clkOe = .output → s.pins.clkOut = .high →
    (s.pins.dioOe = .input → dioLine e s.pins = .low) ∧
    (s.port = encode (.start d) :: rest →
      (trace (eventCount s.cfg (.start d)) s).map (fun p => (clkLine e p, dioLine e p)) =
        [(.high, s.pins.dioOut)]) ∧
    (s.port = encode (.stop d) :: rest →
      (trace (eventCount s.cfg (.stop d)) s).map (fun p => (clkLine e p, dioLine e p)) =
        [(.high, s.pins.dioOut), (.high, s.pins.dioOut), (.high, .low)])

/-- R111, R117: in the first bracket after reset `START` drives the data line at `DIO_OUT_RESET` with the clock still
released, and the clock is first driven, `LOW`, by phase 0 of the first `WRITE_BYTE`. The number of steps is the model's
(log entries 3 and 18). -/
def Obligations.FirstBracketAfterReset : Prop :=
  ∀ (c : Config) (e : Env) (b : Byte) (rest : List CmdWord),
    (trace (eventsOf c [encode (.start 0), encode (.writeByte b)])
      { State.resetWith c e with port := encode (.start 0) :: encode (.writeByte b) :: rest }).take 2 =
    [⟨.input, .low, .output, c.dioOutReset⟩, ⟨.output, .low, .output, c.dioOutReset⟩]

/-- R109, R85: after reset, and after `RELEASE`, the clock line is at the environment's level and the data line at the
pull-down's unless the chip drives it. The number of events of `RELEASE` is the model's (log entry 3), and so is that the
port need not present it (log entry 21). -/
def Obligations.ReleasedLinesAfterResetAndRelease : Prop :=
  ∀ (s : State) (e : Env), s.seq.op = .idle → s.dly = 0 → e.chip = none →
    (s.rst = true → ∃ t, step s = .next t ∧ clkLine e t.pins = e.clkReleased ∧ dioLine e t.pins = .low) ∧
    (∀ d, ∃ t, repeatExec (.release d) (eventCount s.cfg (.release d)) s = .next t ∧
      clkLine e t.pins = e.clkReleased ∧ dioLine e t.pins = .low)

/-- R75: the phase function of `WRITE_BYTE` and the counts of its phases: nine clock-low, nine clock-high, and eight data
phases, of which as many drive as the byte has bits set. -/
def Obligations.WriteBytePhaseFunction : Prop :=
  ∀ d : Byte,
    (∀ k, k ≤ 25 → phasePins (writeByteActions k d) = fun p =>
      if 24 ≤ k then (if k = 24 then p.drive .clk .low else p.drive .clk .high)
      else if k % 3 = 0 then p.drive .clk .low
      else if k % 3 = 1 then (if d.getLsbD (k / 3) then p.drive .dio .high else p.release .dio)
      else p.drive .clk .high) ∧
    (List.range 26).countP (fun k => decide (Prim.drive .clk .low ∈ writeByteActions k d)) = 9 ∧
    (List.range 26).countP (fun k => decide (Prim.drive .clk .high ∈ writeByteActions k d)) = 9 ∧
    (List.range 26).countP (fun k => decide (Prim.drive .dio .high ∈ writeByteActions k d)) =
      (List.range 8).countP (fun i => d.getLsbD i) ∧
    (List.range 26).countP (fun k => decide (Prim.release .dio ∈ writeByteActions k d)) =
      8 - (List.range 8).countP (fun i => d.getLsbD i)

/-- R6: `DLY_CYCLES` clocks of period `1 / F_CLK` last at least `T_BIT`, and it is the least positive count that does. The
units, nanoseconds and hertz with their factor 1000000000, and the value 1 where the product is 0 are the model's choice
(log entry 16): R6 gives none. -/
def Obligations.DlyCyclesCoverTheBitPeriod : Prop :=
  ∀ (t f : Nat) (d : Level), 1 ≤ (Config.ofTiming t f d).dlyCycles ∧
    t * f ≤ (Config.ofTiming t f d).dlyCycles * 1000000000 ∧
    (1 < (Config.ofTiming t f d).dlyCycles → ((Config.ofTiming t f d).dlyCycles - 1) * 1000000000 < t * f)
end

