-- ==== Sys2Proof/Laws/State.lean ====
section
/-! SUPPORT. One lemma per field per update of the state: what each named update leaves in each field. -/

namespace Sys2Proof.Machine

section PinUpdates
variable (p : Pins) (d : Direction) (v : Level)

@[simp] theorem Pins.setDir_clk : p.setDir .clk d = ⟨d, p.clkOut, p.dioOe, p.dioOut⟩ := rfl
@[simp] theorem Pins.setDir_dio : p.setDir .dio d = ⟨p.clkOe, p.clkOut, d, p.dioOut⟩ := rfl
@[simp] theorem Pins.writeLevel_clk : p.writeLevel .clk v = ⟨p.clkOe, v, p.dioOe, p.dioOut⟩ := rfl
@[simp] theorem Pins.writeLevel_dio : p.writeLevel .dio v = ⟨p.clkOe, p.clkOut, p.dioOe, v⟩ := rfl
@[simp] theorem Pins.drive_clk : p.drive .clk v = ⟨.output, v, p.dioOe, p.dioOut⟩ := rfl
@[simp] theorem Pins.drive_dio : p.drive .dio v = ⟨p.clkOe, p.clkOut, .output, v⟩ := rfl
@[simp] theorem Pins.release_clk : p.release .clk = ⟨.input, p.clkOut, p.dioOe, p.dioOut⟩ := rfl
@[simp] theorem Pins.release_dio : p.release .dio = ⟨p.clkOe, p.clkOut, .input, p.dioOut⟩ := rfl
end PinUpdates

section Accept
variable (s : State) (op : SeqOp) (d : Byte)

@[simp] theorem State.accept_pins : (s.accept op d).pins = s.pins := rfl
@[simp] theorem State.accept_seq : (s.accept op d).seq = ⟨op, 0⟩ := rfl
@[simp] theorem State.accept_data : (s.accept op d).data = d := rfl
@[simp] theorem State.accept_dly : (s.accept op d).dly = s.dly := rfl
@[simp] theorem State.accept_cfg : (s.accept op d).cfg = s.cfg := rfl
@[simp] theorem State.accept_rst : (s.accept op d).rst = s.rst := rfl
@[simp] theorem State.accept_port : (s.accept op d).port = s.port.tail := rfl
@[simp] theorem State.accept_env : (s.accept op d).env = s.env := rfl
end Accept

section Reset
variable (s : State)

@[simp] theorem State.applyReset_pins : s.applyReset.pins = .atReset s.cfg := rfl
@[simp] theorem State.applyReset_seq : s.applyReset.seq = .idle := rfl
@[simp] theorem State.applyReset_data : s.applyReset.data = 0 := rfl
@[simp] theorem State.applyReset_dly : s.applyReset.dly = 0 := rfl
@[simp] theorem State.applyReset_cfg : s.applyReset.cfg = s.cfg := rfl
@[simp] theorem State.applyReset_rst : s.applyReset.rst = s.rst := rfl
@[simp] theorem State.applyReset_port : s.applyReset.port = s.port := rfl
@[simp] theorem State.applyReset_env : s.applyReset.env = s.env := rfl
end Reset

section Inputs
variable (s : State) (i : Inputs)

@[simp] theorem State.withInputs_pins : (s.withInputs i).pins = s.pins := rfl
@[simp] theorem State.withInputs_seq : (s.withInputs i).seq = s.seq := rfl
@[simp] theorem State.withInputs_data : (s.withInputs i).data = s.data := rfl
@[simp] theorem State.withInputs_dly : (s.withInputs i).dly = s.dly := rfl
@[simp] theorem State.withInputs_cfg : (s.withInputs i).cfg = s.cfg := rfl
@[simp] theorem State.withInputs_rst : (s.withInputs i).rst = i.rst := rfl
@[simp] theorem State.withInputs_port : (s.withInputs i).port = s.port ++ i.present := rfl
@[simp] theorem State.withInputs_env : (s.withInputs i).env = i.env := rfl
end Inputs

section Presenting
variable (s : State) (w : Nat)

@[simp] theorem State.presenting_pins : (s.presenting w).pins = s.pins := rfl
@[simp] theorem State.presenting_seq : (s.presenting w).seq = .idle := rfl
@[simp] theorem State.presenting_data : (s.presenting w).data = s.data := rfl
@[simp] theorem State.presenting_dly : (s.presenting w).dly = 0 := rfl
@[simp] theorem State.presenting_cfg : (s.presenting w).cfg = s.cfg := rfl
@[simp] theorem State.presenting_rst : (s.presenting w).rst = false := rfl
@[simp] theorem State.presenting_port : (s.presenting w).port = presentedWord w ++ s.port := rfl
@[simp] theorem State.presenting_env : (s.presenting w).env = s.env := rfl
end Presenting

@[simp] theorem Seq.idle_op : Seq.idle.op = .idle := rfl
@[simp] theorem Seq.idle_k : Seq.idle.k = 0 := rfl

end Sys2Proof.Machine
end

