-- ==== Sys2Proof/Laws/Ops.lean ====
section
/-! SUPPORT. What each shared operation can do, said once: phases, waits, the engine's event, and one step. -/

namespace Sys2Proof.Machine

theorem performAll_eq (as : List Prim) (s : State) :
    performAll as s = { s with pins := phasePins as s.pins } := by
  induction as generalizing s with
  | nil => rfl
  | cons a as ih =>
    have step1 : a.perform s = { s with pins := a.onPins s.pins } := by cases a <;> rfl
    have unfold1 : performAll (a :: as) s = performAll as (a.perform s) := rfl
    rw [unfold1, step1, ih]
    rfl

/-- A phase start changes the pin registers and `DLY`, nothing else. -/
theorem State.beginPhase_eq (s : State) (as : List Prim) :
    s.beginPhase as = { s with pins := phasePins as s.pins, dly := s.cfg.dlyCycles } := by
  simp only [State.beginPhase, performAll_eq]

theorem State.waitClock_zero (s : State) : s.waitClock 0 = { s with dly := 0, seq := s.seq.advance } := rfl

theorem State.waitClock_succ (s : State) (n : Nat) : s.waitClock (n + 1) = { s with dly := n + 1 } := by
  simp [State.waitClock]

/-- A clock of a wait holds every register but `DLY` and `SEQ`. -/
theorem State.waitClock_holds (s : State) (n : Nat) :
    (s.waitClock n).pins = s.pins ∧ (s.waitClock n).data = s.data ∧ (s.waitClock n).cfg = s.cfg ∧
      (s.waitClock n).rst = s.rst ∧ (s.waitClock n).port = s.port ∧ (s.waitClock n).env = s.env ∧
      (s.waitClock n).dly = n := by
  cases n with
  | zero => simp [State.waitClock]
  | succ n => simp [State.waitClock]

theorem dlyCycles_pos (c : Config) : 0 < c.dlyCycles := Nat.succ_pos _

/-- Every meaning is the engine's event over its row of the phase function. -/
theorem exec_eq (i : Instr) (s : State) :
    exec i s = engineEvent (seqOpOf i) i.data (actions (seqOpOf i)) s := by
  cases i <;> rfl

theorem seqOpOf_ne_idle (i : Instr) : seqOpOf i ≠ .idle := by cases i <;> simp [seqOpOf]

theorem exec_idle (i : Instr) (s : State) (h : s.seq.op = .idle) :
    exec i s = .next (s.accept (seqOpOf i) i.data) := by
  simp [exec_eq, engineEvent, h]

theorem exec_phase (i : Instr) (s : State) (h : s.seq.op = seqOpOf i) (hd : s.dly = 0) :
    exec i s = .next (s.beginPhase (actions (seqOpOf i) s.seq.k s.data)) := by
  simp [exec_eq, engineEvent, h, seqOpOf_ne_idle, hd]

theorem exec_wait (i : Instr) (s : State) (n : Nat) (h : s.seq.op = seqOpOf i) (hd : s.dly = n + 1) :
    exec i s = .next (s.waitClock n) := by
  simp [exec_eq, engineEvent, h, seqOpOf_ne_idle, hd]

theorem exec_other (i : Instr) (s : State) (h : s.seq.op ≠ .idle) (hn : s.seq.op ≠ seqOpOf i) :
    exec i s = .next s := by
  simp [exec_eq, engineEvent, h, hn]

/-- The instruction in progress is the one at the sequencer's position, with `DATA` as its field. -/
theorem inProgress_some {op : SeqOp} {d : Byte} {i : Instr} (h : inProgress op d = some i) :
    seqOpOf i = op ∧ i.data = d := by
  cases op <;> simp [inProgress] at h <;> subst h <;> simp [seqOpOf, Instr.data]

theorem State.current_busy (s : State) (h : s.seq.op ≠ .idle) :
    ∃ i, s.current = some i ∧ seqOpOf i = s.seq.op ∧ i.data = s.data := by
  unfold State.current
  cases hop : s.seq.op <;> simp_all [inProgress, seqOpOf, Instr.data]

theorem State.current_idle (s : State) (h : s.seq.op = .idle) : s.current = s.port.head?.map decodeWord := by
  simp [State.current, h, State.cmd]

/-- What one step can do, all of it. -/
theorem step_cases {s t : State} (h : step s = .next t) :
    (s.rst = true ∧ t = s.applyReset) ∨
    (s.rst = false ∧ s.seq.op = .idle ∧ s.port = [] ∧ t = s) ∨
    (s.rst = false ∧ s.seq.op = .idle ∧ ∃ w rest, s.port = w :: rest ∧
      t = s.accept (seqOpOf (decodeWord w)) (decodeWord w).data) ∨
    (s.rst = false ∧ s.seq.op ≠ .idle ∧ s.dly = 0 ∧ t = s.beginPhase (actions s.seq.op s.seq.k s.data)) ∨
    (s.rst = false ∧ s.seq.op ≠ .idle ∧ ∃ n, s.dly = n + 1 ∧ t = s.waitClock n) := by
  unfold step at h
  cases hr : s.rst with
  | true => simp [hr] at h; exact .inl ⟨rfl, h.symm⟩
  | false =>
    simp only [hr, Bool.false_eq_true, if_false] at h
    refine .inr ?_
    by_cases hop : s.seq.op = .idle
    · rw [State.current_idle s hop] at h
      cases hp : s.port with
      | nil => simp [hp] at h; exact .inl ⟨rfl, hop, rfl, h.symm⟩
      | cons w rest =>
        simp [hp, exec_idle _ _ hop] at h
        exact .inr (.inl ⟨rfl, hop, w, rest, rfl, h.symm⟩)
    · obtain ⟨i, hi, hio, -⟩ := State.current_busy s hop
      rw [hi] at h
      cases hd : s.dly with
      | zero =>
        simp only [exec_phase i s hio.symm hd, hio, Host.Outcome.next.injEq] at h
        exact .inr (.inr (.inl ⟨rfl, hop, rfl, h.symm⟩))
      | succ n =>
        simp only [exec_wait i s n hio.symm hd, Host.Outcome.next.injEq] at h
        exact .inr (.inr (.inr ⟨rfl, hop, n, rfl, h.symm⟩))

/-- The five kinds of step, each as the state it answers. -/
theorem step_rst (s : State) (h : s.rst = true) : step s = .next s.applyReset := by simp [step, h]

theorem step_accept (s : State) (w : CmdWord) (rest : List CmdWord) (hr : s.rst = false)
    (hop : s.seq.op = .idle) (hp : s.port = w :: rest) :
    step s = .next (s.accept (seqOpOf (decodeWord w)) (decodeWord w).data) := by
  simp [step, hr, State.current_idle s hop, hp, exec_idle _ _ hop]

theorem step_phase (s : State) (hr : s.rst = false) (hop : s.seq.op ≠ .idle) (hd : s.dly = 0) :
    step s = .next (s.beginPhase (actions s.seq.op s.seq.k s.data)) := by
  obtain ⟨i, hi, hio, -⟩ := State.current_busy s hop
  simp [step, hr, hi, exec_phase i s hio.symm hd, hio]

theorem step_wait (s : State) (n : Nat) (hr : s.rst = false) (hop : s.seq.op ≠ .idle) (hd : s.dly = n + 1) :
    step s = .next (s.waitClock n) := by
  obtain ⟨i, hi, hio, -⟩ := State.current_busy s hop
  simp [step, hr, hi, exec_wait i s n hio.symm hd]

/-- A run of `m + n` steps is a run of `m` and then one of `n`. -/
theorem run_add (m n : Nat) (s t : State) (h : run m s = .next t) : run (m + n) s = run n t := by
  induction m generalizing s with
  | zero => simp only [run, Host.Outcome.next.injEq] at h; simp [h]
  | succ m ih =>
    have hsplit : run (m + 1 + n) s = run ((m + n) + 1) s := by rw [Nat.add_right_comm]
    rw [hsplit, run]
    rw [run] at h
    cases hs : step s with
    | next u => simp only [hs] at h ⊢; exact ih u h
    | fault r => cases r
    | refused r => simp [hs] at h

/-- The wait of a phase, all its clocks: only `DLY` and `SEQ` move, and they move together at the end. -/
theorem run_wait (s : State) (n : Nat) (hr : s.rst = false) (hop : s.seq.op ≠ .idle) (hd : s.dly = n + 1) :
    run (n + 1) s = .next { s with dly := 0, seq := s.seq.advance } := by
  induction n generalizing s with
  | zero => simp [run, step_wait s 0 hr hop hd, State.waitClock_zero]
  | succ n ih =>
    rw [run, step_wait s (n + 1) hr hop hd, State.waitClock_succ]
    exact ih { s with dly := n + 1 } hr hop rfl

/-- What one event of an instruction can do, all of it. -/
theorem exec_cases {i : Instr} {s t : State} (h : exec i s = .next t) :
    (s.seq.op = .idle ∧ t = s.accept (seqOpOf i) i.data) ∨
    (s.seq.op = seqOpOf i ∧ s.dly = 0 ∧ t = s.beginPhase (actions (seqOpOf i) s.seq.k s.data)) ∨
    (s.seq.op = seqOpOf i ∧ ∃ n, s.dly = n + 1 ∧ t = s.waitClock n) ∨
    (s.seq.op ≠ .idle ∧ s.seq.op ≠ seqOpOf i ∧ t = s) := by
  by_cases hi : s.seq.op = .idle
  · rw [exec_idle i s hi] at h; cases h; exact .inl ⟨hi, rfl⟩
  · by_cases ho : s.seq.op = seqOpOf i
    · cases hd : s.dly with
      | zero => rw [exec_phase i s ho hd] at h; cases h; exact .inr (.inl ⟨ho, rfl, rfl⟩)
      | succ n => rw [exec_wait i s n ho hd] at h; cases h; exact .inr (.inr (.inl ⟨ho, n, rfl, rfl⟩))
    · rw [exec_other i s hi ho] at h; cases h; exact .inr (.inr (.inr ⟨hi, ho, rfl⟩))

/-- `m + n` events of an instruction are `m` and then `n`. -/
theorem repeatExec_add (i : Instr) (m n : Nat) (s t : State) (h : repeatExec i m s = .next t) :
    repeatExec i (m + n) s = repeatExec i n t := by
  induction m generalizing s with
  | zero => simp only [repeatExec, Host.Outcome.next.injEq] at h; simp [h]
  | succ m ih =>
    have hsplit : repeatExec i (m + 1 + n) s = repeatExec i ((m + n) + 1) s := by rw [Nat.add_right_comm]
    rw [hsplit, repeatExec]
    rw [repeatExec] at h
    cases hs : exec i s with
    | next u => simp only [hs] at h ⊢; exact ih u h
    | fault r => cases r
    | refused r => simp [hs] at h

/-- The trace of `m + n` steps is that of the first `m` and then that of the rest. -/
theorem trace_add (m n : Nat) (s t : State) (h : run m s = .next t) :
    trace (m + n) s = trace m s ++ trace n t := by
  induction m generalizing s with
  | zero => simp only [run, Host.Outcome.next.injEq] at h; simp [h, trace]
  | succ m ih =>
    have hsplit : trace (m + 1 + n) s = trace ((m + n) + 1) s := by rw [Nat.add_right_comm]
    rw [hsplit, trace, trace]
    rw [run] at h
    cases hs : step s with
    | next u => simp only [hs] at h ⊢; rw [ih u h]; split <;> simp
    | fault r => cases r
    | refused r => simp [hs] at h

/-- The last phase of an operation is one below its count. -/
theorem last_add_one (i : Instr) : (seqOpOf i).last + 1 = phaseCount i := by cases i <;> rfl

/-- The 26 phases of `WRITE_BYTE` from the parameters of R6: three a data bit, two an acknowledgment slot. -/
theorem phaseCount_writeByte (b : Byte) : phaseCount (.writeByte b) = 3 * byteBits + 2 * ackSlots := rfl

end Sys2Proof.Machine
end

