-- ==== Sys2Proof/Laws/ByteTransfer.lean ====
section
/-! SUPPORT. The phases of `WRITE_BYTE` one by one, and what the first of them leave of the pin registers. -/

namespace Sys2Proof.Machine

@[simp] theorem phasePins_nil (p : Pins) : phasePins [] p = p := rfl

@[simp] theorem phasePins_cons (a : Prim) (as : List Prim) (p : Pins) :
    phasePins (a :: as) p = phasePins as (a.onPins p) := rfl

theorem pinsAfter_succ (op : SeqOp) (d : Byte) (n : Nat) (p : Pins) :
    pinsAfter op d (n + 1) p = phasePins (actions op n d) (pinsAfter op d n p) := rfl

section Phases
variable {i : Nat} (d : Byte)

theorem writeByteActions_low (h : i < 8) : writeByteActions (3 * i) d = [.drive .clk .low] := by
  have h1 : ¬ 24 ≤ 3 * i := by omega
  have h2 : 3 * i % 3 = 0 := by omega
  simp only [writeByteActions, h1, h2, if_false]

theorem writeByteActions_data (h : i < 8) :
    writeByteActions (3 * i + 1) d = dataPhase (operandBit d i) := by
  have h1 : ¬ 24 ≤ 3 * i + 1 := by omega
  have h2 : (3 * i + 1) % 3 = 1 := by omega
  have h3 : (3 * i + 1) / 3 = i := by omega
  simp only [writeByteActions, h1, h2, h3, if_false]

theorem writeByteActions_high (h : i < 8) : writeByteActions (3 * i + 2) d = [.drive .clk .high] := by
  have h1 : ¬ 24 ≤ 3 * i + 2 := by omega
  have h2 : (3 * i + 2) % 3 = 2 := by omega
  simp only [writeByteActions, h1, h2, if_false]

theorem writeByteActions_ackLow : writeByteActions 24 d = [.drive .clk .low] := rfl

theorem writeByteActions_ackHigh : writeByteActions 25 d = [.drive .clk .high, .readLevel .dio] := rfl

theorem phasePins_dataPhase (bit : Bool) (p : Pins) :
    phasePins (dataPhase bit) p =
      ⟨p.clkOe, p.clkOut, if bit then .output else .input, if bit then .high else p.dioOut⟩ := by
  cases bit <;> rfl
end Phases

/-- A phase of `WRITE_BYTE` is one of three: clock low, the data phase of a bit, clock high. -/
theorem writeByte_phase_cases {k : Nat} (h : k ≤ 25) (d : Byte) (p : Pins) :
    (k % 3 = 0 ∧ phasePins (writeByteActions k d) p = { p with clkOe := .output, clkOut := .low }) ∨
    (k % 3 = 1 ∧ k < 24 ∧ phasePins (writeByteActions k d) p =
      { p with
        dioOe := if operandBit d (k / 3) then .output else .input
        dioOut := if operandBit d (k / 3) then .high else p.dioOut }) ∨
    ((k % 3 = 2 ∨ k = 25) ∧
      phasePins (writeByteActions k d) p = { p with clkOe := .output, clkOut := .high }) := by
  rcases Nat.lt_or_ge k 24 with hk | hk
  · have hi : k / 3 < 8 := by omega
    have hsplit : k = 3 * (k / 3) + k % 3 := by omega
    have hr : k % 3 < 3 := by omega
    rcases (by omega : k % 3 = 0 ∨ k % 3 = 1 ∨ k % 3 = 2) with h0 | h1 | h2
    · refine .inl ⟨h0, ?_⟩
      rw [hsplit, h0, Nat.add_zero, writeByteActions_low d hi]; rfl
    · refine .inr (.inl ⟨h1, hk, ?_⟩)
      have hact : writeByteActions k d = dataPhase (operandBit d (k / 3)) := by
        conv_lhs => rw [hsplit, h1]
        exact writeByteActions_data d hi
      rw [hact, phasePins_dataPhase]
    · refine .inr (.inr ⟨.inl h2, ?_⟩)
      rw [hsplit, h2, writeByteActions_high d hi]; rfl
  · rcases (by omega : k = 24 ∨ k = 25) with rfl | rfl
    · exact .inl ⟨rfl, rfl⟩
    · exact .inr (.inr ⟨.inr rfl, rfl⟩)

/-- After phase `n` of a `WRITE_BYTE`: the clock is driven, `LOW` in the first two phases of a triple and in the first
half of the acknowledgment slot, `HIGH` in the others; the data line is as the last data phase set it. -/
theorem pinsAfter_writeByte (d : Byte) (p : Pins) (n : Nat) (h : n ≤ 25) :
    (pinsAfter .writeByte d (n + 1) p).clkOe = .output ∧
    (pinsAfter .writeByte d (n + 1) p).clkOut = (if n % 3 = 2 ∨ n = 25 then .high else .low) ∧
    (1 ≤ n → (pinsAfter .writeByte d (n + 1) p).dioOe =
      (if operandBit d (min 7 ((n - 1) / 3)) then .output else .input)) ∧
    (1 ≤ n → operandBit d (min 7 ((n - 1) / 3)) = true →
      (pinsAfter .writeByte d (n + 1) p).dioOut = .high) := by
  induction n with
  | zero => simp [pinsAfter, actions, writeByteActions, phasePins, Prim.onPins]
  | succ n ih =>
    obtain ⟨ihOe, ihOut, ihDio, ihLatch⟩ := ih (by omega)
    rw [pinsAfter_succ]
    rcases writeByte_phase_cases h d (pinsAfter .writeByte d (n + 1) p) with
      ⟨hm, he⟩ | ⟨hm, hlt, he⟩ | ⟨hm, he⟩ <;> simp only [actions, he]
    · have hidx : min 7 ((n + 1 - 1) / 3) = min 7 ((n - 1) / 3) := by omega
      have h1 : 1 ≤ n := by omega
      rw [hidx]
      exact ⟨trivial, by rw [if_neg (by omega)], fun _ => ihDio h1, fun _ => ihLatch h1⟩
    · have hidx : min 7 ((n + 1 - 1) / 3) = (n + 1) / 3 := by omega
      rw [hidx]
      refine ⟨ihOe, ?_, fun _ => rfl, fun _ hb => by simp [hb]⟩
      rw [ihOut, if_neg (by omega), if_neg (by omega)]
    · have hidx : min 7 ((n + 1 - 1) / 3) = min 7 ((n - 1) / 3) := by omega
      have h1 : 1 ≤ n := by omega
      rw [hidx]
      exact ⟨trivial, by rw [if_pos hm], fun _ => ihDio h1, fun _ => ihLatch h1⟩

/-- The data latch after the first `n` phases of a `WRITE_BYTE`: 1 if one of their data phases had a 1 bit, else as it
was before. -/
theorem pinsAfter_writeByte_latch (d : Byte) (p : Pins) (n : Nat) (h : n ≤ 26) :
    (∀ i, i < 8 → 3 * i + 1 < n → operandBit d i = true → (pinsAfter .writeByte d n p).dioOut = .high) ∧
    ((∀ i, i < 8 → 3 * i + 1 < n → operandBit d i = false) →
      (pinsAfter .writeByte d n p).dioOut = p.dioOut) := by
  induction n with
  | zero => exact ⟨fun i _ h1 _ => absurd h1 (by omega), fun _ => rfl⟩
  | succ n ih =>
    obtain ⟨ihSet, ihKeep⟩ := ih (by omega)
    rw [pinsAfter_succ]
    rcases writeByte_phase_cases (by omega : n ≤ 25) d (pinsAfter .writeByte d n p) with
      ⟨hm, he⟩ | ⟨hm, hlt, he⟩ | ⟨hm, he⟩ <;> simp only [actions, he]
    · exact ⟨fun i hi h1 hb => ihSet i hi (by omega) hb,
        fun hall => ihKeep fun i hi h1 => hall i hi (by omega)⟩
    · constructor
      · intro i hi h1 hb
        rcases (by omega : 3 * i + 1 < n ∨ i = n / 3) with hlt' | rfl
        · rw [ihSet i hi hlt' hb, ite_self]
        · rw [if_pos hb]
      · intro hall
        have hnow : operandBit d (n / 3) = false := hall (n / 3) (by omega) (by omega)
        rw [hnow, if_neg (by decide)]
        exact ihKeep fun i hi h1 => hall i hi (by omega)
    · exact ⟨fun i hi h1 hb => ihSet i hi (by omega) hb,
        fun hall => ihKeep fun i hi h1 => hall i hi (by omega)⟩

end Sys2Proof.Machine
end

