-- ==== Sys2Proof/Laws/PerInstr.lean ====
section
/-! SUPPORT. Facts about every instruction as syntax: its command word lies in its own row of the opcode table. -/

namespace Sys2Proof.Laws.TableRow

/-- The word of the instruction belongs to a row of the opcode table, and to one only, and the row bears its name. -/
def Statement (i : Instr) : Prop :=
  (opcodeTable.filter fun r => r.holds (encode i)).map (·.mnemonic) = [i.mnemonic]

theorem start (d : Byte) : Statement (.start d) := by revert d; unfold Statement; decide
theorem stop (d : Byte) : Statement (.stop d) := by revert d; unfold Statement; decide
theorem writeByte (b : Byte) : Statement (.writeByte b) := by revert b; unfold Statement; decide
theorem release (d : Byte) : Statement (.release d) := by revert d; unfold Statement; decide

end Sys2Proof.Laws.TableRow
end

