-- ==== Sys2Proof/Tests/Slice0.lean ====
section
/-! SUPPORT. The model's own tests. Expected results are written out from the spec's encodings (`30_encoding.md`), its
tables and its vectors (`95_test_vectors.md`), never from the model. The second part shows, for each obligation with
hypotheses, concrete values that meet them together. -/

namespace Sys2Proof.Tests

open Sys2Proof.Machine

/-! Well-formedness: each check refuses an ill-formed term. -/

theorem test_canonical_refuses_data_in_start : Instr.canonical (.start 0xFF) = false := by decide
theorem test_canonical_refuses_data_in_stop : Instr.canonical (.stop 0x01) = false := by decide
theorem test_canonical_refuses_data_in_release : Instr.canonical (.release 0x80) = false := by decide
theorem test_operand_refuses_wide_value : operandInRange 0x100 = false ∧ byteOperand 0x100 = none := by decide
theorem test_word_refuses_eleventh_bit : isCommandWord 0x400 = false := by decide
theorem test_frame_refuses_no_data : Frame.wellFormed ⟨0, 0, [], 0⟩ = false := by decide
theorem test_frame_refuses_five_data : Frame.wellFormed ⟨0, 0, [1, 2, 3, 4, 5], 0⟩ = false := by decide
theorem test_every_instr_wellFormed_at_its_bounds :
    [Instr.start 0xFF, .stop 0xFF, .writeByte 0x00, .writeByte 0xFF, .release 0xFF].all Instr.wellFormed := by decide

/-! Decoding: words written out bit by bit from R50, R51; the values are `95_test_vectors.md` 2.1. -/

theorem test_decode_start : decodeWord 0b0011111111#10 = .start 0b11111111#8 := by decide
theorem test_decode_stop : decodeWord 0b0110100101#10 = .stop 0b10100101#8 := by decide
theorem test_decode_writeByte : decodeWord 0b1001000000#10 = .writeByte 0b01000000#8 := by decide
theorem test_decode_release : decodeWord 0b1111111111#10 = .release 0b11111111#8 := by decide
theorem test_decode_rejects_by_name : decode 0x400 = .error .widerThanCommandWord := by rfl
theorem test_decodeTableWord : decodeTableWord 16 0x240 = some (.writeByte 0x40) ∧
    decodeTableWord 16 0x640 = none := by decide
theorem test_encode_words : [Instr.start 0, .writeByte 0x40, .stop 0, .release 0].map encode =
    [0x000, 0x240, 0x100, 0x300] := by decide

/-- The words of program P3 (`95_test_vectors.md`), whose byte values are illustrative. -/
theorem test_frame_words : Frame.words ⟨0x40, 0xC0, [0x06], 0x8F⟩ =
    [0x000, 0x240, 0x100, 0x000, 0x2C0, 0x206, 0x100, 0x000, 0x28F, 0x100] := by decide

/-! Small states. -/

/-- Pins from the tuple notation of `95_test_vectors.md`. -/
def pins (clkOe clkOut dioOe dioOut : Bool) : Pins :=
  let dir : Bool → Direction := fun b => if b then .output else .input
  ⟨dir clkOe, .ofBool clkOut, dir dioOe, .ofBool dioOut⟩

/-- A state with the given registers, three clocks to a bit period, a chip that drives `DIO` low. -/
def st (p : Pins) (op : SeqOp) (k : Nat) (data : Byte) (dly : Nat) (port : List CmdWord) : State :=
  { pins := p, seq := ⟨op, k⟩, data := data, dly := dly, cfg := ⟨2, .high⟩, rst := false, port := port,
    env := ⟨some .low, .high, .low⟩ }

/-- The outcome is this next state. -/
def answers (o : Host.Outcome State Fault Refusal) (t : State) : Bool :=
  match o with
  | .next u => decide (u = t)
  | .fault _ => false
  | .refused _ => false

/-- One token of a trace: `1` and `0` driven, `z` released. -/
def token (p : Pins) : Char × Char :=
  let one : Direction → Level → Char := fun d l =>
    match d, l with
    | .input, _ => 'z'
    | .output, .low => '0'
    | .output, .high => '1'
  (one p.clkOe p.clkOut, one p.dioOe p.dioOut)

/-! The four instructions, one step each. -/

/-- V1: `START` from the idle bus with the latch 1. -/
theorem test_start_V1 : answers (exec (.start 0) (st (pins true true false true) .start 0 0 0 []))
    (st (pins true true true true) .start 0 0 3 []) := by decide

/-- V2: `START` as first operation after reset with the latch 0. -/
theorem test_start_V2 : answers (exec (.start 0) (st (pins false false false false) .start 0 0 0 []))
    (st (pins false false true false) .start 0 0 3 []) := by decide

/-- V4, phase 1: `STOP` first drives the clock. -/
theorem test_stop_V4_phase1 : answers (exec (.stop 0) (st (pins false false true false) .stop 1 0 0 []))
    (st (pins true true true false) .stop 1 0 3 []) := by decide

/-- V3, phase 2: `STOP` releases the data line and keeps the latch. -/
theorem test_stop_V3_phase2 : answers (exec (.stop 0) (st (pins true true true true) .stop 2 0 0 []))
    (st (pins true true false true) .stop 2 0 3 []) := by decide

/-- V9: the 26 tokens of `WRITE_BYTE 0xA5` from `(1,1,1,1)`. -/
theorem test_writeByte_V9 : (opTrace (.writeByte 0xA5) (pins true true true true)).map token =
    [('0','1'),('0','1'),('1','1'), ('0','1'),('0','z'),('1','z'), ('0','z'),('0','1'),('1','1'),
     ('0','1'),('0','z'),('1','z'), ('0','z'),('0','z'),('1','z'), ('0','z'),('0','1'),('1','1'),
     ('0','1'),('0','z'),('1','z'), ('0','z'),('0','1'),('1','1'), ('0','1'),('1','1')] := by decide

/-- V9b, phase 19: the first 1 bit of `WRITE_BYTE 0x40` (bit 6) sets the latch. -/
theorem test_writeByte_V9b_phase19 :
    answers (exec (.writeByte 0) (st (pins true false false false) .writeByte 19 0x40 0 []))
      (st (pins true false true true) .writeByte 19 0x40 3 []) := by decide

/-- V10: `RELEASE` from the idle bus keeps both latches. -/
theorem test_release_V10 : answers (exec (.release 0) (st (pins true true false true) .release 0 0 0 []))
    (st (pins false true false true) .release 0 0 3 []) := by decide

/-- V10c: `RELEASE` from a pin state met only inside an operation. -/
theorem test_release_V10c : answers (exec (.release 0) (st (pins true false true true) .release 0 0 0 []))
    (st (pins false false false true) .release 0 0 3 []) := by decide

/-! The sequencer and the port (`95_test_vectors.md` 2.7). -/

theorem test_accept_takes_word : answers (step (st (pins true true false true) .idle 0 0 0 [0x240, 0x100]))
    (st (pins true true false true) .writeByte 0 0x40 0 [0x100]) := by decide

theorem test_last_wait_ends_operation : answers (step (st (pins true true false true) .writeByte 25 0x40 1 []))
    (st (pins true true false true) .idle 0 0x40 0 []) := by decide

theorem test_busy_holds_presented_word : answers (step (st (pins true true true true) .stop 1 0 2 [0x000]))
    (st (pins true true true true) .stop 1 0 1 [0x000]) := by decide

theorem test_bit_taken_from_data_not_port :
    answers (step (st (pins true false false true) .writeByte 10 0x08 0 [0x200]))
      (st (pins true false true true) .writeByte 10 0x08 3 [0x200]) := by decide

theorem test_reset_abandons_operation :
    answers (step { st (pins true false true false) .writeByte 10 0xFF 2 [0x000] with rst := true })
      { st (pins false false false true) .idle 0 0 0 [0x000] with rst := true } := by decide

theorem test_idle_with_nothing_presented : answers (step (st (pins true true false true) .idle 0 0x40 0 []))
    (st (pins true true false true) .idle 0 0x40 0 []) := by decide

theorem test_first_step_after_reset_takes_word :
    answers (step (State.reset.withFetchWord 16 0x2A5))
      { State.reset with seq := ⟨.writeByte, 0⟩, data := 0xA5 } := by decide

theorem test_contended_line_is_the_environments :
    dioLine ⟨some .low, .high, .low⟩ (pins true true true true) = .low ∧
    dioLine ⟨some .low, .high, .high⟩ (pins true true true true) = .high := by decide

/-! Witnesses: for each obligation with hypotheses, values that meet them; a clause of several at its boundary. -/

/-- Idle on the idle bus, a command presented. -/
def idleBus (port : List CmdWord) : State := st (pins true true false true) .idle 0 0x00 0 port

/-- Inside the acknowledgment slot of `WRITE_BYTE 0xC0`, phase 24 made and its wait under way. -/
def inAckSlot : State := st (pins true false true true) .writeByte 24 0xC0 2 []

/-- Before the data phase of bit 6 of `WRITE_BYTE 0x40`. -/
def beforeBit6 : State := st (pins true false false true) .writeByte 19 0x40 0 []

/-- In the wait of the last phase of a `STOP`. -/
def endOfStop : State := st (pins true true false true) .stop 2 0x00 1 [0x000]

theorem inv_idleBus (port : List CmdWord) : EngineInv (idleBus port) :=
  ⟨fun _ => ⟨rfl, rfl⟩, Nat.le_refl 0, Nat.zero_le _, ⟨_, rfl⟩, fun _ h => by cases h.2⟩

theorem inv_inAckSlot : EngineInv inAckSlot :=
  ⟨fun h => (by cases h), by decide, by decide, ⟨pins true true true true, rfl⟩, fun h => absurd rfl h⟩

theorem inv_beforeBit6 : EngineInv beforeBit6 :=
  ⟨fun h => (by cases h), by decide, by decide, ⟨pins true true true true, rfl⟩, fun h => absurd rfl h⟩

theorem inv_endOfStop : EngineInv endOfStop :=
  ⟨fun h => (by cases h), by decide, by decide, ⟨pins true true true true, rfl⟩, fun _ h => by cases h.2⟩

theorem witness_OpFieldSelectsOperation : (0x0FF : CmdWord) &&& 0x300 = 0x000 ∧ (0x1FF : CmdWord) &&& 0x300 = 0x100 ∧
    (0x2FF : CmdWord) &&& 0x300 = 0x200 ∧ (0x3FF : CmdWord) &&& 0x300 = 0x300 := by decide

theorem witness_EveryCommandWordDecodes : 1023 < 1024 ∧ 1024 ≤ 1024 := by decide

theorem witness_EncodeThenDecodeGivesItBack : (Instr.writeByte 0xFF).wellFormed = true := by decide

theorem witness_FramingDataFieldIgnored :
    (∃ t, exec (.start 1) (idleBus []) = .next t) ∧ (idleBus []).seq.op = .idle ∧
    (∃ t, exec (.stop 1) endOfStop = .next t) ∧ endOfStop.seq.op ≠ .idle :=
  ⟨⟨_, rfl⟩, rfl, ⟨_, rfl⟩, by decide⟩

theorem witness_StepRunsTheCommand :
    ((idleBus [0x3FF]).rst = false ∧ (idleBus [0x3FF]).seq.op = .idle ∧ decode 0x3FF = .ok (.release 0xFF) ∧
      (idleBus [0x3FF]).port = BitVec.ofNat 10 0x3FF :: []) ∧
    (idleBus []).port = [] ∧
    (seqOpOf (.writeByte 0x40) = beforeBit6.seq.op ∧ (Instr.writeByte 0x40).data = beforeBit6.data) ∧
    decodeTableWord 16 0x100 = some (.stop 0) := by
  refine ⟨⟨rfl, rfl, rfl, rfl⟩, rfl, ⟨rfl, rfl⟩, by decide⟩

theorem witness_AcceptTakesTheCommand : (idleBus [0x000]).seq.op = .idle := by decide

theorem witness_StartPhase : let s := st (pins true true false true) .start 0 0 0 []
    s.seq = ⟨.start, 0⟩ ∧ s.dly = 0 := by decide

theorem witness_StopPhases : ∀ k ∈ [0, 1, 2], let s := st (pins true true false true) .stop k 0 0 []
    s.seq.op = .stop ∧ s.dly = 0 ∧ s.seq.k = k := by decide

theorem witness_WriteBytePhases :
    (∀ i ∈ [0, 7], ∀ r ∈ [0, 1, 2], let s := st (pins true true true true) .writeByte (3 * i + r) 0x80 0 []
      i < 8 ∧ s.seq.op = .writeByte ∧ s.dly = 0 ∧ s.seq.k = 3 * i + r) ∧
    (0x80 : Byte).getLsbD 7 = true ∧ (0x80 : Byte).getLsbD 0 = false ∧
    (∀ k ∈ [24, 25], (st (pins true true true true) .writeByte k 0x80 0 []).seq.k = k) := by decide

theorem witness_ReleasePhase : let s := st (pins true true false true) .release 0 0 0 []
    s.seq = ⟨.release, 0⟩ ∧ s.dly = 0 := by decide

theorem witness_WaitCountsDown :
    (let s := st (pins true true true true) .stop 1 0 2 [];
      s.seq.op = seqOpOf (.stop 0) ∧ s.dly = 1 + 1 ∧ 0 < 1) ∧
    (let s := st (pins true true true true) .stop 1 0 1 [];
      s.dly = 0 + 1 ∧ s.seq.k + 1 < phaseCount (.stop 0)) ∧
    (endOfStop.dly = 0 + 1 ∧ endOfStop.seq.k + 1 = phaseCount (.stop 0)) := by decide

theorem witness_CommandHeldWhileAnotherRuns :
    endOfStop.seq.op ≠ .idle ∧ endOfStop.seq.op ≠ seqOpOf (.start 0) := by decide

theorem witness_ExecFrame :
    (∃ t, exec (.start 0) (st (pins true true false true) .start 0 0 0 []) = .next t ∧
      t.pins ≠ pins true true false true) ∧
    (∃ t, exec (.stop 0) endOfStop = .next t) ∧
    (∃ t, exec (.release 0) (idleBus []) = .next t) ∧ (∃ t, step (idleBus [0x000]) = .next t) :=
  ⟨⟨_, rfl, by decide⟩, ⟨_, rfl⟩, ⟨_, rfl⟩, ⟨_, rfl⟩⟩

theorem witness_OperationPostState : (idleBus []).seq.op = .idle ∧ (idleBus []).dly = 0 := by decide

theorem witness_PhaseIsOneChangeThenWait :
    beforeBit6.atPhaseStart = true ∧ beforeBit6.seq.k ≤ beforeBit6.seq.op.last ∧
    (let s := st (pins true true true true) .stop 2 0 0 [];
      s.atPhaseStart = true ∧ s.seq.k = s.seq.op.last) := by decide

theorem witness_WaitHoldsPins : beforeBit6.atPhaseStart = true ∧ (∃ t, step beforeBit6 = .next t) ∧
    (∀ n ∈ [2, 3], (List.replicate n (Inputs.mk false [] Env.quiet)).length ≤ beforeBit6.cfg.dlyCycles) ∧
    (∀ i ∈ List.replicate 3 (Inputs.mk false [] Env.quiet), i.rst = false) :=
  ⟨by decide, ⟨_, rfl⟩, by decide, by decide⟩

theorem witness_PortIgnoredWhileBusy :
    endOfStop.rst = false ∧ endOfStop.busy = true ∧ ∃ t, step endOfStop = .next t :=
  ⟨rfl, by decide, ⟨_, rfl⟩⟩

theorem witness_ResetRegisters : ({ inAckSlot with rst := true } : State).rst = true := rfl

theorem witness_StepKeepsInv : (EngineInv beforeBit6 ∧ ∃ t, step beforeBit6 = .next t) ∧
    (∃ t, stepUnder (Inputs.mk true [] Env.quiet) beforeBit6 = .next t) :=
  ⟨⟨inv_beforeBit6, ⟨_, rfl⟩⟩, ⟨_, rfl⟩⟩

/-- A busy state is reachable: a command is presented to the engine after reset. -/
theorem witness_ReachableStatesAreLegal : ∃ s, Reachable s ∧ s.busy = true ∧
    ∃ t, stepUnder (Inputs.mk false [] Env.quiet) s = .next t ∧ t.pins ≠ s.pins :=
  ⟨_, .step _ _ (Inputs.mk false [0x0AA] Env.quiet) (.reset ⟨0, .high⟩ .quiet) rfl, by decide, _, rfl, by decide⟩

theorem witness_DataLatchWrittenOnlyByOneBits :
    let s := st (pins true false false false) .writeByte 22 0x80 0 []
    s.rst = false ∧ ∃ t, step s = .next t ∧ t.pins.dioOut ≠ s.pins.dioOut :=
  ⟨rfl, _, rfl, by decide⟩

theorem witness_ReleasedClockLatchNeverShows :
    let s := st (pins false true false true) .stop 1 0 0 []
    s.pins.clkOe = .input ∧ ∃ t, step s = .next t :=
  ⟨rfl, _, rfl⟩

theorem witness_ChipNeverMatters :
    let is := [Inputs.mk false [0x2FF] ⟨none, .low, .low⟩, Inputs.mk true [] ⟨none, .low, .low⟩]
    let js := [Inputs.mk false [0x2FF] ⟨some .low, .high, .low⟩, Inputs.mk true [] ⟨some .high, .low, .high⟩]
    is.map (fun i => (i.rst, i.present)) = js.map (fun j => (j.rst, j.present)) := by decide

theorem witness_BusyFallsInBoundedTime : EngineInv inAckSlot ∧ inAckSlot.rst = false ∧ inAckSlot.busy = true :=
  ⟨inv_inAckSlot, rfl, by decide⟩

theorem witness_BusyFollowsThePosition :
    ((idleBus [0x2FF]).busy = false ∧ ∃ t, step (idleBus [0x2FF]) = .next t ∧ t.busy = true) ∧
    (EngineInv endOfStop ∧ endOfStop.busy = true ∧ ∃ t, step endOfStop = .next t ∧ t.busy = false) :=
  ⟨⟨by decide, _, rfl, by decide⟩, inv_endOfStop, by decide, _, rfl, by decide⟩

theorem witness_ProgramPostState : let s := idleBus [0x000, 0x240, 0x100, 0x300]
    s.rst = false ∧ s.seq = ⟨.idle, 0⟩ ∧ s.dly = 0 ∧ s.port = [0x000, 0x240, 0x100] ++ [0x300] := by decide

theorem witness_ProgramTraceIsTheListings : let s := idleBus [0x200, 0x100]
    s.rst = false ∧ s.seq = ⟨.idle, 0⟩ ∧ s.dly = 0 ∧ s.port = [0x200, 0x100] ++ [] := by decide

theorem witness_FrameCounts : (∀ n ∈ [1, 4], Frame.wellFormed ⟨0x40, 0xC0, List.replicate n 0x06, 0x8F⟩) := by decide

theorem witness_FrameRun : let f : Frame := ⟨0x40, 0xC0, [0x06], 0x8F⟩
    let s := idleBus (f.words ++ [0x300])
    f.wellFormed = true ∧ s.rst = false ∧ s.seq = ⟨.idle, 0⟩ ∧ s.dly = 0 ∧ s.port = f.words ++ [0x300] := by decide

theorem witness_ObserverRecoversTheByte : let s := idleBus [0x2A5, 0x100]
    s.rst = false ∧ s.seq = ⟨.idle, 0⟩ ∧ s.dly = 0 ∧ s.port = encode (.writeByte 0xA5) :: [0x100] ∧
    Env.quiet.chip = none := by decide

theorem witness_AckSlotKeepsDataLine : EngineInv inAckSlot ∧ inAckSlot.seq.op = .writeByte ∧ 24 ≤ inAckSlot.seq.k ∧
    inAckSlot.data.getLsbD 7 = true :=
  ⟨inv_inAckSlot, rfl, by decide, by decide⟩

/-- The other clause of `AckSlotKeepsDataLine`: a byte whose bit 7 is 0, at the last phase. -/
theorem witness_AckSlotKeepsDataLine_released :
    let s := st (pins true true false true) .writeByte 25 0x40 1 []
    EngineInv s ∧ s.seq.op = .writeByte ∧ 24 ≤ s.seq.k ∧ s.data.getLsbD 7 = false :=
  ⟨⟨fun h => (by cases h), by decide, by decide, ⟨pins true true true true, rfl⟩, fun h => absurd rfl h⟩,
    rfl, by decide, by decide⟩

theorem witness_ZeroIsNeverDriven : EngineInv inAckSlot ∧ inAckSlot.seq.op = .writeByte ∧ 2 ≤ inAckSlot.seq.k ∧
    inAckSlot.pins.dioOe = .output ∧
    (let s := st (pins true false false true) .writeByte 1 0x40 1 [];
      EngineInv s ∧ s.seq.k = 1 ∧ 0 < s.dly ∧ Env.quiet.chip = none ∧ dioLine Env.quiet s.pins = .low) :=
  ⟨inv_inAckSlot, rfl, by decide, rfl,
    ⟨fun h => (by cases h), by decide, by decide, ⟨pins true true true true, rfl⟩, fun h => absurd rfl h⟩,
    rfl, by decide, rfl, rfl⟩

theorem witness_DataMovesOnlyUnderLowClock : EngineInv beforeBit6 ∧ beforeBit6.rst = false ∧
    beforeBit6.seq.op = .writeByte ∧ ∃ t, step beforeBit6 = .next t ∧ t.pins.dioOe ≠ beforeBit6.pins.dioOe :=
  ⟨inv_beforeBit6, rfl, rfl, _, rfl, by decide⟩

theorem witness_LineFunction :
    (pins true true true true).clkOe = .output ∧ (pins false true false true).clkOe = .input ∧
    (pins true true true true).dioOe = .output ∧ (pins true true false true).dioOe = .input ∧
    Env.quiet.chip = none ∧ (Env.mk (some .low) .low .low).chip = some .low ∧
    Level.low ≠ (pins true true true true).dioOut := by decide

theorem witness_ReadLevelOnlyInAckSlot :
    25 ≤ SeqOp.writeByte.last ∧ Prim.readLevel .dio ∈ actions .writeByte 25 0x00 := by decide

theorem witness_PinPrimitives : Env.quiet.chip = none ∧ (pins false true true true).clkOe = .input ∧
    (pins true true false true).dioOe = .input := by decide

theorem witness_TwoCallDriveShowsNoEdge : (pins true false false false).clkDrivenLow ∧
    (pins true false false false).dioOut = .low ∧ Env.quiet.chip = none :=
  ⟨⟨rfl, rfl⟩, rfl, rfl⟩

theorem witness_BracketEdges :
    (let s := idleBus [0x000, 0x100];
      s.rst = false ∧ s.seq = ⟨.idle, 0⟩ ∧ s.dly = 0 ∧ s.pins.clkOe = .output ∧ s.pins.clkOut = .high ∧
        s.pins.dioOe = .input ∧ s.port = encode (.start 0) :: [0x100]) ∧
    (idleBus [0x100]).port = encode (.stop 0) :: [] ∧ Env.quiet.chip = none := by decide

theorem witness_ReleasedLinesAfterResetAndRelease :
    (idleBus []).seq.op = .idle ∧ (idleBus []).dly = 0 ∧ Env.quiet.chip = none ∧
    ({ idleBus [] with rst := true } : State).rst = true := by decide

theorem witness_WriteBytePhaseFunction : 25 ≤ 25 := by decide

theorem witness_DlyCyclesCoverTheBitPeriod :
    1 < (Config.ofTiming tBitNominalNs 1500 .low).dlyCycles := by decide

end Sys2Proof.Tests
end

section
/-! PROOFS. `DLY_CYCLES` as a ceiling (`00_scope.md` R6): the count of engine clocks that covers a bit period. -/

namespace Sys2Proof

theorem ceilCycles_eq_ceilDiv (t f : Nat) : ceilCycles t f = t * f ⌈/⌉ 1000000000 := by
  rw [Nat.ceilDiv_eq_add_pred_div, Nat.add_sub_assoc (by decide), ceilCycles]

/-- A count of clocks is at least the ceiling exactly when that many clocks cover `T_BIT`. -/
theorem ceilCycles_le_iff (t f n : Nat) : ceilCycles t f ≤ n ↔ t * f ≤ n * 1000000000 := by
  rw [ceilCycles_eq_ceilDiv, ceilDiv_le_iff_le_mul (by decide), mul_comm n]

theorem lt_ceilCycles_iff (t f n : Nat) : n < ceilCycles t f ↔ n * 1000000000 < t * f := by
  rw [← not_le, ceilCycles_le_iff, not_le]

@[simp] theorem Config.dlyCycles_ofTiming (t f : Nat) (d : Level) :
    (Config.ofTiming t f d).dlyCycles = max 1 (ceilCycles t f) := by
  simp only [Config.dlyCycles, Config.ofTiming]
  omega

/-- Settles O48: a count covers `T_BIT` exactly when it is at least the ceiling, and `DLY_CYCLES` is the larger of 1 and
the ceiling. -/
theorem dlyCyclesCoverTheBitPeriod : Obligations.DlyCyclesCoverTheBitPeriod := by
  intro t f d
  rw [Config.dlyCycles_ofTiming]
  refine ⟨le_max_left _ _, ?covers, fun hgt => ?leastThatCovers⟩
  case covers => exact (ceilCycles_le_iff t f _).mp (le_max_right _ _)
  case leastThatCovers =>
    have hfewer : max 1 (ceilCycles t f) - 1 < ceilCycles t f := by omega
    exact (lt_ceilCycles_iff t f _).mp hfewer

end Sys2Proof
end

section
/-! PROOFS. Rules the proofs about `10_state.md` share: what a phase start and a clock of a wait leave in each field of
the state, where the sequencer goes next, and the first step of a run. -/

namespace Sys2Proof.Machine

section PhaseStart
variable (s : State) (as : List Prim)

@[simp] theorem State.beginPhase_pins : (s.beginPhase as).pins = phasePins as s.pins := by rw [State.beginPhase_eq]
@[simp] theorem State.beginPhase_seq : (s.beginPhase as).seq = s.seq := by rw [State.beginPhase_eq]
@[simp] theorem State.beginPhase_data : (s.beginPhase as).data = s.data := by rw [State.beginPhase_eq]
@[simp] theorem State.beginPhase_dly : (s.beginPhase as).dly = s.cfg.dlyCycles := by rw [State.beginPhase_eq]
@[simp] theorem State.beginPhase_cfg : (s.beginPhase as).cfg = s.cfg := by rw [State.beginPhase_eq]
@[simp] theorem State.beginPhase_rst : (s.beginPhase as).rst = s.rst := by rw [State.beginPhase_eq]
@[simp] theorem State.beginPhase_port : (s.beginPhase as).port = s.port := by rw [State.beginPhase_eq]
@[simp] theorem State.beginPhase_env : (s.beginPhase as).env = s.env := by rw [State.beginPhase_eq]
end PhaseStart

section WaitClock
variable (s : State) (n : Nat)

@[simp] theorem State.waitClock_pins : (s.waitClock n).pins = s.pins := by simp only [State.waitClock_holds]
@[simp] theorem State.waitClock_data : (s.waitClock n).data = s.data := by simp only [State.waitClock_holds]
@[simp] theorem State.waitClock_dly : (s.waitClock n).dly = n := by simp only [State.waitClock_holds]
@[simp] theorem State.waitClock_cfg : (s.waitClock n).cfg = s.cfg := by simp only [State.waitClock_holds]
@[simp] theorem State.waitClock_rst : (s.waitClock n).rst = s.rst := by simp only [State.waitClock_holds]
@[simp] theorem State.waitClock_port : (s.waitClock n).port = s.port := by simp only [State.waitClock_holds]
@[simp] theorem State.waitClock_env : (s.waitClock n).env = s.env := by simp only [State.waitClock_holds]
@[simp] theorem State.waitClock_zero_seq : (s.waitClock 0).seq = s.seq.advance := rfl
@[simp] theorem State.waitClock_succ_seq : (s.waitClock (n + 1)).seq = s.seq := by rw [State.waitClock_succ]
end WaitClock

theorem Seq.advance_of_last_le {q : Seq} (h : q.op.last ≤ q.k) : q.advance = .idle := if_pos h

theorem Seq.advance_of_lt {q : Seq} (h : q.k < q.op.last) : q.advance = ⟨q.op, q.k + 1⟩ :=
  if_neg (Nat.not_le.mpr h)

theorem State.phasesMade_of_dly_zero {s : State} (h : s.dly = 0) : s.phasesMade = s.seq.k := if_pos h

theorem State.phasesMade_of_dly_pos {s : State} (h : 0 < s.dly) : s.phasesMade = s.seq.k + 1 :=
  if_neg (Nat.pos_iff_ne_zero.mp h)

@[simp] theorem State.busy_eq_true_iff (s : State) : s.busy = true ↔ s.seq.op ≠ .idle := by simp [State.busy]

@[simp] theorem State.busy_eq_false_iff (s : State) : s.busy = false ↔ s.seq.op = .idle := by simp [State.busy]

theorem State.atPhaseStart_iff (s : State) :
    s.atPhaseStart = true ↔ s.rst = false ∧ s.seq.op ≠ .idle ∧ s.dly = 0 := by
  simp [State.atPhaseStart]

theorem step_idle (s : State) (hr : s.rst = false) (hop : s.seq.op = .idle) (hp : s.port = []) :
    step s = .next s := by
  simp [step, hr, State.current_idle s hop, hp]

/-- `1 + n` steps are the first and then `n`. -/
theorem run_one_add {s t : State} (h : step s = .next t) (n : Nat) : run (1 + n) s = run n t :=
  run_add 1 n s t (by simp [run, h])

/-- `1 + n` events of an instruction are the first and then `n`. -/
theorem repeatExec_one_add {i : Instr} {s t : State} (h : exec i s = .next t) (n : Nat) :
    repeatExec i (1 + n) s = repeatExec i n t :=
  repeatExec_add i 1 n s t (by simp [repeatExec, h])

end Sys2Proof.Machine
end

section
/-! PROOFS. The invariant of the engine (`10_state.md` R25): it holds after reset, each kind of step keeps it, and so
it holds in every reachable state. -/

namespace Sys2Proof.Machine

/-- Idle with no wait under way, any pin state with the clock not driven `LOW` meets the invariant. -/
theorem engineInv_at_rest {s : State} (hseq : s.seq = .idle) (hdly : s.dly = 0) (hclk : ¬ s.pins.clkDrivenLow) :
    EngineInv s where
  idle_at_rest _ := ⟨by rw [hseq, Seq.idle_k], hdly⟩
  k_in_range := by rw [hseq]; exact Nat.le_refl 0
  dly_bounded := by rw [hdly]; exact Nat.zero_le _
  pins_follow := ⟨s.pins, by rw [State.phasesMade_of_dly_zero hdly, hseq]; rfl⟩
  clk_not_low _ := hclk

theorem Pins.atReset_not_clkDrivenLow (c : Config) : ¬ (Pins.atReset c).clkDrivenLow := by
  rintro ⟨hdriven, -⟩
  cases hdriven

/-- Settles O21: reset leaves `(IDLE, 0)`, no wait and a released clock. -/
theorem resetMeetsInv : Obligations.ResetMeetsInv := fun c _ =>
  engineInv_at_rest rfl rfl (Pins.atReset_not_clkDrivenLow c)

theorem engineInv_applyReset (s : State) : EngineInv s.applyReset :=
  engineInv_at_rest rfl rfl (Pins.atReset_not_clkDrivenLow s.cfg)

/-- No phase of `START`, `STOP` or `RELEASE` makes the clock driven `LOW` (R77). -/
theorem phasePins_not_clkDrivenLow {op : SeqOp} {k : Nat} {d : Byte} {p : Pins} (hop : op ≠ .writeByte)
    (hp : ¬ p.clkDrivenLow) : ¬ (phasePins (actions op k d) p).clkDrivenLow := by
  cases op with
  | idle => exact hp
  | start => exact hp
  | stop =>
    match k with
    | 0 => exact hp
    | 1 => rintro ⟨-, hlow⟩; cases hlow
    | _ + 2 => exact hp
  | writeByte => exact absurd rfl hop
  | release => rintro ⟨hdriven, -⟩; cases hdriven

namespace EngineInv
variable {s : State}

/-- The outside world writes no register. -/
theorem withInputs (h : EngineInv s) (i : Inputs) : EngineInv (s.withInputs i) := { h with }

theorem accept (h : EngineInv s) (hop : s.seq.op = .idle) (op : SeqOp) (d : Byte) : EngineInv (s.accept op d) := by
  obtain ⟨-, hdly⟩ := h.idle_at_rest hop
  exact {
    idle_at_rest := fun _ => ⟨rfl, hdly⟩
    k_in_range := Nat.zero_le _
    dly_bounded := h.dly_bounded
    pins_follow := ⟨s.pins, by rw [State.phasesMade_of_dly_zero (s := s.accept op d) hdly]; rfl⟩
    clk_not_low := fun _ => h.clk_not_low (by simp [hop]) }

theorem beginPhase (h : EngineInv s) (hop : s.seq.op ≠ .idle) (hdly : s.dly = 0) :
    EngineInv (s.beginPhase (actions s.seq.op s.seq.k s.data)) := by
  obtain ⟨p, hp⟩ := h.pins_follow
  rw [State.phasesMade_of_dly_zero hdly] at hp
  have hmade : (s.beginPhase (actions s.seq.op s.seq.k s.data)).phasesMade = s.seq.k + 1 := by
    rw [State.phasesMade_of_dly_pos (by simp [dlyCycles_pos]), State.beginPhase_seq]
  exact {
    idle_at_rest := fun hidle => absurd (by simpa using hidle) hop
    k_in_range := by simpa using h.k_in_range
    dly_bounded := by simp
    pins_follow := ⟨p, by rw [hmade]; simp [pinsAfter_succ, ← hp]⟩
    clk_not_low := fun hwb => by
      rw [State.beginPhase_seq] at hwb
      simpa using phasePins_not_clkDrivenLow hwb (h.clk_not_low hwb) }

/-- While the last phase waits, the clock is not driven `LOW`: phase 25 of `WRITE_BYTE` has driven it `HIGH`. -/
theorem clk_not_low_after_last (h : EngineInv s) (hdly : 0 < s.dly) (hlast : s.seq.op.last ≤ s.seq.k) :
    ¬ s.pins.clkDrivenLow := by
  by_cases hwb : s.seq.op = .writeByte
  · rintro ⟨-, hlow⟩
    have hlast25 : s.seq.op.last = 25 := by rw [hwb]; rfl
    have hk : s.seq.k = 25 := hlast25 ▸ Nat.le_antisymm h.k_in_range hlast
    obtain ⟨p, hp⟩ := h.pins_follow
    obtain ⟨-, hhigh, -⟩ := pinsAfter_writeByte s.data p 25 (Nat.le_refl _)
    rw [State.phasesMade_of_dly_pos hdly, hwb, hk] at hp
    rw [hp, hhigh] at hlow
    cases hlow
  · exact h.clk_not_low hwb

theorem waitClock (h : EngineInv s) {n : Nat} (hop : s.seq.op ≠ .idle) (hdly : s.dly = n + 1) :
    EngineInv (s.waitClock n) := by
  have hpos : 0 < s.dly := hdly ▸ Nat.succ_pos n
  obtain ⟨p, hp⟩ := h.pins_follow
  rw [State.phasesMade_of_dly_pos hpos] at hp
  rcases n with _ | n
  · rcases Nat.lt_or_ge s.seq.k s.seq.op.last with hlt | hlast
    · -- the wait of an inner phase ends
      have hseq : (s.waitClock 0).seq = ⟨s.seq.op, s.seq.k + 1⟩ := Seq.advance_of_lt hlt
      exact {
        idle_at_rest := fun hidle => absurd (by simpa [hseq] using hidle) hop
        k_in_range := by simpa [hseq] using hlt
        dly_bounded := by simp
        pins_follow := ⟨p, by rw [State.phasesMade_of_dly_zero (by simp), hseq]; simpa using hp⟩
        clk_not_low := by simpa [hseq] using h.clk_not_low }
    · -- the wait of the last phase ends
      exact engineInv_at_rest (Seq.advance_of_last_le hlast) rfl (h.clk_not_low_after_last hpos hlast)
  · -- the wait goes on
    exact {
      idle_at_rest := fun hidle => absurd (by simpa using hidle) hop
      k_in_range := by simpa using h.k_in_range
      dly_bounded := by have := h.dly_bounded; simp; omega
      pins_follow := ⟨p, by rw [State.phasesMade_of_dly_pos (by simp)]; simpa using hp⟩
      clk_not_low := by simpa using h.clk_not_low }

theorem step (h : EngineInv s) {t : State} (ht : step s = .next t) : EngineInv t := by
  rcases step_cases ht with ⟨-, rfl⟩ | ⟨-, -, -, rfl⟩ | ⟨-, hop, w, rest, -, rfl⟩ | ⟨-, hop, hdly, rfl⟩ |
    ⟨-, hop, n, hdly, rfl⟩
  · exact engineInv_applyReset s
  · exact h
  · exact h.accept hop _ _
  · exact h.beginPhase hop hdly
  · exact h.waitClock hop hdly

end EngineInv

/-- Settles O22: each kind of step keeps the invariant, and the outside world writes no register before it. -/
theorem stepKeepsInv : Obligations.StepKeepsInv :=
  ⟨fun _ _ h ht => h.step ht, fun _ _ i h ht => (h.withInputs i).step ht⟩

theorem Reachable.engineInv {s : State} (h : Reachable s) : EngineInv s := by
  induction h with
  | reset c e => exact resetMeetsInv c e
  | step s t i _ ht ih => exact (ih.withInputs i).step ht

end Sys2Proof.Machine
end

section
/-! PROOFS. The pin registers take no part in the control of the engine (`10_state.md` R15, R91): what a step does to them
is one function, which the rest of the state picks. From it: where the data latch is written (R18), that the latch of a
released clock never shows (R19), and what holds in every reachable state (R25). -/

namespace Sys2Proof.Machine

/-- What a step from `s` does to the pin registers: reset sets them, a phase start makes its phase's writes, every other
step holds them. -/
def State.pinEffect (s : State) (p : Pins) : Pins :=
  if s.rst then .atReset s.cfg
  else if s.atPhaseStart then phasePins (actions s.seq.op s.seq.k s.data) p
  else p

theorem State.pinEffect_of_rst {s : State} (h : s.rst = true) (p : Pins) : s.pinEffect p = .atReset s.cfg :=
  if_pos h

theorem State.pinEffect_of_phaseStart {s : State} (h : s.atPhaseStart = true) (p : Pins) :
    s.pinEffect p = phasePins (actions s.seq.op s.seq.k s.data) p := by
  simp [State.pinEffect, h, (s.atPhaseStart_iff.mp h).1]

theorem State.pinEffect_of_hold {s : State} (hr : s.rst = false) (h : s.seq.op = .idle ∨ s.dly ≠ 0) (p : Pins) :
    s.pinEffect p = p := by
  have hnot : ¬ s.atPhaseStart = true := by
    rw [State.atPhaseStart_iff]
    rintro ⟨-, hop, hdly⟩
    exact h.elim hop (· hdly)
  simp [State.pinEffect, hr, hnot]

/-- With any other pin state in the place of its own, `s` makes the same step but for the pin registers. -/
theorem step_with_pins {s t : State} (h : step s = .next t) (p : Pins) :
    step { s with pins := p } = .next { t with pins := s.pinEffect p } := by
  rcases step_cases h with ⟨hr, rfl⟩ | ⟨hr, hop, hport, rfl⟩ | ⟨hr, hop, w, rest, hport, rfl⟩ | ⟨hr, hop, hdly, rfl⟩ |
    ⟨hr, hop, n, hdly, rfl⟩
  · rw [step_rst { s with pins := p } hr, State.pinEffect_of_rst hr]; rfl
  · rw [step_idle { t with pins := p } hr hop hport, State.pinEffect_of_hold hr (.inl hop)]
  · rw [step_accept { s with pins := p } w rest hr hop hport, State.pinEffect_of_hold hr (.inl hop)]; rfl
  · have hstart : s.atPhaseStart = true := s.atPhaseStart_iff.mpr ⟨hr, hop, hdly⟩
    rw [step_phase { s with pins := p } hr hop hdly, State.pinEffect_of_phaseStart hstart]
    simp only [State.beginPhase_eq]
  · rw [step_wait { s with pins := p } n hr hop hdly, State.pinEffect_of_hold hr (.inr (by simp [hdly]))]
    cases n <;> rfl

theorem step_pins {s t : State} (h : step s = .next t) : t.pins = s.pinEffect s.pins := by
  have hself := (step_with_pins h s.pins).symm.trans h
  simp only [Host.Outcome.next.injEq] at hself
  rw [← hself]

/-- The pin registers change only at reset or at the start of a phase (R25). -/
theorem step_pins_change {s t : State} (h : step s = .next t) (hne : t.pins ≠ s.pins) :
    s.rst = true ∨ s.atPhaseStart = true := by
  rw [step_pins h, State.pinEffect] at hne
  by_contra hneither
  rw [not_or] at hneither
  exact hne (by simp [hneither])

/-- Past its last phase `WRITE_BYTE` repeats the actions of the last one (log entry 5). -/
theorem writeByteActions_past_last {k : Nat} (h : 25 ≤ k) (d : Byte) :
    writeByteActions k d = [.drive .clk .high, .readLevel .dio] := by
  rw [writeByteActions, if_pos (by omega), if_neg (by omega)]

/-- A phase keeps the data latch, but for the data phase of a 1 bit of `WRITE_BYTE`, which drives the line `HIGH`. -/
theorem phasePins_dioOut_cases (op : SeqOp) (k : Nat) (d : Byte) (p : Pins) :
    (phasePins (actions op k d) p).dioOut = p.dioOut ∨
    (op = .writeByte ∧ (∃ i, i < 8 ∧ k = 3 * i + 1 ∧ d.getLsbD i = true) ∧
      phasePins (actions op k d) p = p.drive .dio .high) := by
  cases op with
  | idle | start | release => exact .inl rfl
  | stop => match k with | 0 | 1 | _ + 2 => exact .inl rfl
  | writeByte =>
    change (phasePins (writeByteActions k d) p).dioOut = _ ∨ _
    rcases Nat.le_total k 25 with hk | hk
    · rcases writeByte_phase_cases hk d p with ⟨-, he⟩ | ⟨hdata, hlt, he⟩ | ⟨-, he⟩
      · exact .inl (by rw [he])
      · cases hbit : operandBit d (k / 3) with
        | false => exact .inl (by simp [he, hbit])
        | true => exact .inr ⟨rfl, ⟨k / 3, by omega, by omega, hbit⟩, by simp [actions, he, hbit]⟩
      · exact .inl (by rw [he])
    · rw [writeByteActions_past_last hk]; exact .inl rfl

/-- Settles O25: out of reset only a phase start writes pin registers, and of the phases only the data phase of a 1 bit
writes the data latch. -/
theorem dataLatchWrittenOnlyByOneBits : Obligations.DataLatchWrittenOnlyByOneBits := by
  intro s t hr hstep hne
  have hstart : s.atPhaseStart = true := by
    refine (step_pins_change hstep fun heq => hne (by rw [heq])).resolve_left ?_
    simp [hr]
  obtain ⟨-, -, hdly⟩ := s.atPhaseStart_iff.mp hstart
  have hpins := step_pins hstep
  rw [State.pinEffect_of_phaseStart hstart] at hpins
  rcases phasePins_dioOut_cases s.seq.op s.seq.k s.data s.pins with hkeep | ⟨hop, hbit, hdrive⟩
  · exact absurd (by rw [hpins, hkeep]) hne
  · rw [hpins, hdrive]
    exact ⟨hop, hdly, rfl, rfl, hbit⟩

/-- Out of reset the data latch never goes back from 1 to 0 (R18). -/
theorem step_keeps_dioOut_high {s t : State} (hr : s.rst = false) (h : step s = .next t)
    (hhigh : s.pins.dioOut = .high) : t.pins.dioOut = .high := by
  by_cases hsame : t.pins.dioOut = s.pins.dioOut
  · rw [hsame, hhigh]
  · obtain ⟨-, -, hset, -⟩ := dataLatchWrittenOnlyByOneBits s t hr h hsame
    exact hset

/-- Settles O23: the invariant holds in every reachable state, and a step writes pin registers in two places only. -/
theorem reachableStatesAreLegal : Obligations.ReachableStatesAreLegal := by
  intro s hreach
  have hinv := hreach.engineInv
  refine ⟨fun hop => ?rest, ?position, hinv.dly_bounded, fun i t hstep => ⟨fun hr hhigh => ?latch, fun hne => ?pins⟩⟩
  case rest =>
    obtain ⟨hk, hdly⟩ := hinv.idle_at_rest hop
    exact ⟨hk, hdly, s.busy_eq_false_iff.mpr hop⟩
  case position =>
    have hk := hinv.k_in_range
    cases hop : s.seq.op <;> simpa [hop, SeqOp.last] using hk
  case latch => exact step_keeps_dioOut_high hr hstep hhigh
  case pins =>
    rcases step_pins_change hstep hne with hr | hstart
    · exact .inl hr
    · obtain ⟨-, hop, hdly⟩ := (s.withInputs i).atPhaseStart_iff.mp hstart
      exact .inr ⟨s.busy_eq_true_iff.mpr hop, hdly⟩

/-- `q` is `p`, or is `p` but for the latch `l` of a clock line both release. -/
def Pins.SameOrHiddenLatch (l : Level) (p q : Pins) : Prop :=
  q = p ∨ (p.clkOe = .input ∧ q = { p with clkOut := l })

namespace Pins.SameOrHiddenLatch
variable {l : Level} {p q : Pins}

/-- Every primitive but the one that makes the clock an output at its remembered level keeps a hidden latch hidden. -/
theorem onPins (h : p.SameOrHiddenLatch l q) {a : Prim} (ha : a ≠ .setDir .clk .output) :
    (a.onPins p).SameOrHiddenLatch l (a.onPins q) := by
  rcases h with rfl | ⟨hoe, rfl⟩
  · exact .inl rfl
  · cases a with
    | setDir line dir =>
      cases line with
      | clk =>
        cases dir with
        | input => exact .inr ⟨rfl, rfl⟩
        | output => exact absurd rfl ha
      | dio => exact .inr ⟨hoe, rfl⟩
    | writeLevel line v | drive line v =>
      cases line with
      | clk => exact .inl rfl
      | dio => exact .inr ⟨hoe, rfl⟩
    | release line =>
      cases line with
      | clk => exact .inr ⟨rfl, rfl⟩
      | dio => exact .inr ⟨hoe, rfl⟩
    | readLevel line => exact .inr ⟨hoe, rfl⟩

theorem phasePins {as : List Prim} (has : Prim.setDir .clk .output ∉ as) (h : p.SameOrHiddenLatch l q) :
    (phasePins as p).SameOrHiddenLatch l (phasePins as q) := by
  induction as generalizing p q with
  | nil => exact h
  | cons a as ih =>
    obtain ⟨ha, has⟩ := not_or.mp (mt List.mem_cons.mpr has)
    exact ih has (h.onPins (Ne.symm ha))

/-- In every environment the lines look alike (R34). -/
theorem lines_eq (h : p.SameOrHiddenLatch l q) (e : Env) : clkLine e q = clkLine e p ∧ dioLine e q = dioLine e p := by
  rcases h with rfl | ⟨hoe, rfl⟩
  · exact ⟨rfl, rfl⟩
  · exact ⟨by simp only [clkLine, hoe], rfl⟩

end Pins.SameOrHiddenLatch

/-- The clock is made an output only by a drive, which writes its latch too (R19). -/
theorem setDir_clk_output_not_mem_actions (op : SeqOp) (k : Nat) (d : Byte) :
    Prim.setDir .clk .output ∉ actions op k d := by
  cases op with
  | idle | start | release => simp [actions, startActions, releaseActions]
  | stop => match k with | 0 | 1 | _ + 2 => simp [actions, stopActions]
  | writeByte =>
    simp only [actions, writeByteActions, dataPhase]
    split
    · split <;> simp
    · split
      · simp
      · split <;> simp
      · simp

theorem State.pinEffect_sameOrHiddenLatch {l : Level} {p q : Pins} (s : State) (h : p.SameOrHiddenLatch l q) :
    (s.pinEffect p).SameOrHiddenLatch l (s.pinEffect q) := by
  unfold State.pinEffect
  split
  · exact .inl rfl
  · split
    · exact h.phasePins (setDir_clk_output_not_mem_actions _ _ _)
    · exact h

/-- Settles O26: the pin registers pick no step, and what a step does to them keeps a hidden clock latch hidden. -/
theorem releasedClockLatchNeverShows : Obligations.ReleasedClockLatchNeverShows := by
  intro s t l hoe hstep
  have hidden := s.pinEffect_sameOrHiddenLatch (.inr ⟨hoe, rfl⟩ : s.pins.SameOrHiddenLatch l _)
  rw [← step_pins hstep] at hidden
  refine ⟨_, step_with_pins hstep _, ?states, hidden.lines_eq⟩
  rcases hidden with hsame | ⟨hreleased, hlatch⟩
  · exact .inl (by rw [hsame])
  · exact .inr ⟨hreleased, by rw [hlatch]⟩

end Sys2Proof.Machine
end

section
/-! PROOFS. The sequencer and the command port (`10_state.md` R14 to R17, R24; `30_encoding.md` R55): which instruction a
step runs, what an acceptance and a clock of a wait do, and when `BUSY` rises and falls. -/

namespace Sys2Proof.Machine

/-- Settles O20: the reset state is written with these values. -/
theorem resetStateValues : Obligations.ResetStateValues :=
  ⟨fun _ _ => ⟨rfl, rfl, rfl, rfl, rfl, rfl, rfl⟩, .recommended, .quiet, rfl⟩

/-- Settles O7: the event of an idle engine is the acceptance. -/
theorem acceptTakesTheCommand : Obligations.AcceptTakesTheCommand := fun s hop =>
  ⟨fun d => exec_idle (.start d) s hop, fun d => exec_idle (.stop d) s hop,
    fun b => exec_idle (.writeByte b) s hop, fun d => exec_idle (.release d) s hop⟩

theorem inProgress_seqOpOf (i : Instr) : inProgress (seqOpOf i) i.data = some i := by cases i <;> rfl

theorem State.current_eq_some_of_busy {s : State} {i : Instr} (hop : seqOpOf i = s.seq.op) (hdata : i.data = s.data) :
    s.current = some i := by
  have hbusy : s.seq.op ≠ .idle := hop ▸ seqOpOf_ne_idle i
  have hprogress : s.current = inProgress s.seq.op s.data := by
    unfold State.current
    split
    · contradiction
    · rfl
  rw [hprogress, ← hop, ← hdata, inProgress_seqOpOf]

theorem step_of_current {s : State} {i : Instr} (hr : s.rst = false) (h : s.current = some i) :
    step s = exec i s := by
  simp [step, hr, h]

/-- A pattern that decodes is a command word, and the instruction is that word's. -/
theorem decode_eq_ok_iff {n : Nat} {i : Instr} :
    decode n = .ok i ↔ isCommandWord n = true ∧ decodeWord (BitVec.ofNat 10 n) = i := by
  unfold decode
  split <;> simp [*]

theorem decodeTableWord_eq_some_iff {nbits w : Nat} {i : Instr} :
    decodeTableWord nbits w = some i ↔ decode (w % 2 ^ nbits) = .ok i := by
  unfold decodeTableWord
  split <;> simp [*]

theorem presentedWord_of_isCommandWord {n : Nat} (h : isCommandWord n = true) : presentedWord n = [BitVec.ofNat 10 n] :=
  if_pos h

/-- Settles O6: out of reset a step is the event of the instruction the port or the sequencer names. -/
theorem stepRunsTheCommand : Obligations.StepRunsTheCommand := by
  refine ⟨?presented, step_idle, fun s i hr hop hdata => ?busy, ?fetched⟩
  case presented =>
    intro s n i rest hr hop hdec hport
    obtain ⟨-, hword⟩ := decode_eq_ok_iff.mp hdec
    exact step_of_current hr (by simp [State.current_idle s hop, hport, hword])
  case busy => exact step_of_current hr (State.current_eq_some_of_busy hop hdata)
  case fetched =>
    intro s nbits w i hdec
    obtain ⟨hcmd, hword⟩ := decode_eq_ok_iff.mp (decodeTableWord_eq_some_iff.mp hdec)
    have hport : (s.withFetchWord nbits w).port = BitVec.ofNat 10 (w % 2 ^ nbits) :: s.port := by
      rw [State.withFetchWord, State.presenting_port, presentedWord_of_isCommandWord hcmd]; rfl
    have hidle : (s.withFetchWord nbits w).seq.op = .idle := rfl
    constructor
    · exact step_of_current rfl (by rw [State.current_idle _ hidle, hport, ← hword]; rfl)
    · rw [exec_idle i _ hidle, State.accept, hport]; rfl

/-- Settles O12: a clock of a wait lowers `DLY`, and the last one moves the position. -/
theorem waitCountsDown : Obligations.WaitCountsDown := by
  intro i s n hop hdly
  have hlast : s.seq.op.last + 1 = phaseCount i := hop ▸ last_add_one i
  rw [exec_wait i s n hop hdly]
  refine ⟨fun hpos => ?_, ?_, ?_⟩
  · obtain ⟨m, rfl⟩ := Nat.exists_eq_succ_of_ne_zero (Nat.pos_iff_ne_zero.mp hpos)
    rw [State.waitClock_succ]
  · rintro rfl hk
    rw [State.waitClock_zero, Seq.advance_of_lt (by omega)]
  · rintro rfl hk
    rw [State.waitClock_zero, Seq.advance_of_last_le (by omega)]
    rfl

/-- From an idle engine a step can only reach a busy one by accepting the word at the port. -/
theorem step_raises_busy {s t : State} (h : step s = .next t) (hs : s.seq.op = .idle) (ht : t.seq.op ≠ .idle) :
    s.rst = false ∧ ∃ w rest, s.port = w :: rest ∧ t = s.accept (seqOpOf (decodeWord w)) (decodeWord w).data := by
  rcases step_cases h with ⟨-, rfl⟩ | ⟨-, -, -, rfl⟩ | ⟨hr, -, haccept⟩ | ⟨-, hbusy, -⟩ | ⟨-, hbusy, -⟩
  · exact absurd rfl ht
  · exact absurd hs ht
  · exact ⟨hr, haccept⟩
  · exact absurd hs hbusy
  · exact absurd hs hbusy

/-- From a busy engine a step can only reach an idle one by reset or by the last clock of the last phase's wait. -/
theorem step_lowers_busy {s t : State} (h : step s = .next t) (hs : s.seq.op ≠ .idle) (ht : t.seq.op = .idle) :
    s.rst = true ∨ (s.dly = 1 ∧ s.seq.op.last ≤ s.seq.k) := by
  rcases step_cases h with ⟨hr, -⟩ | ⟨-, hidle, -⟩ | ⟨-, hidle, -⟩ | ⟨-, -, -, rfl⟩ | ⟨-, -, n, hdly, rfl⟩
  · exact .inl hr
  · exact absurd hidle hs
  · exact absurd hidle hs
  · exact absurd (by simpa using ht) hs
  · rcases n with _ | n
    · refine .inr ⟨hdly, Nat.not_lt.mp fun hlt => hs ?_⟩
      rwa [State.waitClock_zero_seq, Seq.advance_of_lt hlt] at ht
    · exact absurd (by simpa using ht) hs

/-- Settles O29: of the kinds of step only an acceptance leaves the idle position, and only a reset or the last clock of
the last wait returns to it. -/
theorem busyFollowsThePosition : Obligations.BusyFollowsThePosition := by
  refine ⟨fun s => ⟨?_, rfl⟩, fun s t hstep hs ht => ?rises, fun s t hinv hstep hs ht => ?falls⟩
  · rw [Bool.eq_iff_iff, State.busy_eq_true_iff, decide_eq_true_iff]
  case rises =>
    rw [State.busy_eq_false_iff] at hs
    rw [State.busy_eq_true_iff] at ht
    obtain ⟨hr, w, rest, hport, rfl⟩ := step_raises_busy hstep hs ht
    exact ⟨hr, w, by simp [hport], rfl⟩
  case falls =>
    rw [State.busy_eq_true_iff] at hs
    rw [State.busy_eq_false_iff] at ht
    exact (step_lowers_busy hstep hs ht).imp_right fun ⟨hdly, hlast⟩ =>
      ⟨hdly, Nat.le_antisymm hinv.k_in_range hlast⟩

end Sys2Proof.Machine
end

section
/-! PROOFS. The frame of the four instructions and of a step (`10_state.md` R12, R13; R61, R62, R85): what they leave
unchanged. -/

namespace Sys2Proof.Machine

section Exec
variable {i : Instr} {s t : State}

/-- No instruction writes the parameters or the inputs other than the port. -/
theorem exec_keeps_surroundings (h : exec i s = .next t) : t.cfg = s.cfg ∧ t.rst = s.rst ∧ t.env = s.env := by
  rcases exec_cases h with ⟨-, rfl⟩ | ⟨-, -, rfl⟩ | ⟨-, n, -, rfl⟩ | ⟨-, -, rfl⟩ <;> simp

/-- An instruction holds the pin registers, or makes the writes of one of its own phases. -/
theorem exec_pins (h : exec i s = .next t) :
    t.pins = s.pins ∨ (s.seq.op = seqOpOf i ∧ s.dly = 0 ∧
      t.pins = phasePins (actions (seqOpOf i) s.seq.k s.data) s.pins) := by
  rcases exec_cases h with ⟨-, rfl⟩ | ⟨hop, hdly, rfl⟩ | ⟨-, n, -, rfl⟩ | ⟨-, -, rfl⟩
  · exact .inl rfl
  · exact .inr ⟨hop, hdly, State.beginPhase_pins _ _⟩
  · exact .inl (State.waitClock_pins _ _)
  · exact .inl rfl

theorem exec_busy_keeps_data_port (h : exec i s = .next t) (hop : s.seq.op ≠ .idle) :
    t.data = s.data ∧ t.port = s.port := by
  rcases exec_cases h with ⟨hidle, -⟩ | ⟨-, -, rfl⟩ | ⟨-, n, -, rfl⟩ | ⟨-, -, rfl⟩
  · exact absurd hidle hop
  · simp
  · simp
  · exact ⟨rfl, rfl⟩

theorem exec_idle_keeps_dly (h : exec i s = .next t) (hop : s.seq.op = .idle) : t.dly = s.dly := by
  rw [exec_idle i s hop, Host.Outcome.next.injEq] at h
  rw [← h, State.accept_dly]

/-- A pin register that no phase of an instruction writes is held by every event of it. -/
theorem exec_keeps_of_phases_keep {α : Type} (f : Pins → α)
    (hf : ∀ k d p, f (phasePins (actions (seqOpOf i) k d) p) = f p) (h : exec i s = .next t) :
    f t.pins = f s.pins := by
  rcases exec_pins h with hsame | ⟨-, -, hphase⟩
  · rw [hsame]
  · rw [hphase, hf]

theorem stopPhases_keep_dioOut (k : Nat) (d : Byte) (p : Pins) :
    (phasePins (actions .stop k d) p).dioOut = p.dioOut :=
  (phasePins_dioOut_cases .stop k d p).resolve_right fun ⟨hop, _⟩ => by cases hop

end Exec

theorem step_frame {s t : State} (h : step s = .next t) :
    t.cfg = s.cfg ∧ t.rst = s.rst ∧ t.env = s.env ∧ (t.port = s.port ∨ ∃ w, s.port = w :: t.port) := by
  rcases step_cases h with ⟨-, rfl⟩ | ⟨-, -, -, rfl⟩ | ⟨-, -, w, rest, hport, rfl⟩ | ⟨-, -, -, rfl⟩ | ⟨-, -, n, -, rfl⟩
  · exact ⟨rfl, rfl, rfl, .inl rfl⟩
  · exact ⟨rfl, rfl, rfl, .inl rfl⟩
  · exact ⟨rfl, rfl, rfl, .inr ⟨w, by simp [hport]⟩⟩
  · simp
  · simp

/-- Settles O14: an instruction writes pin registers only by the phases of its own operation. -/
theorem execFrame : Obligations.ExecFrame := by
  refine ⟨fun i s t h => ?exec, fun _ _ => step_frame⟩
  obtain ⟨hcfg, hrst, henv⟩ := exec_keeps_surroundings h
  refine ⟨hcfg, hrst, henv, fun hne => ?ownPhase, exec_busy_keeps_data_port h, exec_idle_keeps_dly h,
    ?start, ?stop, ?release⟩
  case ownPhase =>
    obtain ⟨hop, hdly, -⟩ := (exec_pins h).resolve_left hne
    exact ⟨hop, hdly⟩
  case start =>
    rintro ⟨d, rfl⟩
    exact ⟨exec_keeps_of_phases_keep Pins.clkOe (fun _ _ _ => rfl) h,
      exec_keeps_of_phases_keep Pins.clkOut (fun _ _ _ => rfl) h,
      exec_keeps_of_phases_keep Pins.dioOut (fun _ _ _ => rfl) h⟩
  case stop =>
    rintro ⟨d, rfl⟩
    exact exec_keeps_of_phases_keep (i := .stop d) Pins.dioOut stopPhases_keep_dioOut h
  case release =>
    rintro ⟨d, rfl⟩
    exact ⟨exec_keeps_of_phases_keep Pins.clkOut (fun _ _ _ => rfl) h,
      exec_keeps_of_phases_keep Pins.dioOut (fun _ _ _ => rfl) h⟩

end Sys2Proof.Machine
end

section
/-! PROOFS. A phase as one change and its wait (`10_state.md` R15, R17), and an operation from its acceptance to the end of
its last wait, which leaves the pin registers of the table of R27. -/

namespace Sys2Proof.Machine

/-- Settles O16: the phase start makes the actions, and `run_wait` is the wait after it. -/
theorem phaseIsOneChangeThenWait : Obligations.PhaseIsOneChangeThenWait := by
  intro s hstart hk
  obtain ⟨hr, hop, hdly⟩ := s.atPhaseStart_iff.mp hstart
  have hnext : s.seq.advance = if s.seq.k = s.seq.op.last then ⟨.idle, 0⟩ else ⟨s.seq.op, s.seq.k + 1⟩ := by
    split
    · next hlast => exact Seq.advance_of_last_le hlast.ge
    · next hinner => exact Seq.advance_of_lt (lt_of_le_of_ne hk hinner)
  rw [run_one_add (step_phase s hr hop hdly), Config.dlyCycles, run_wait _ s.cfg.dlyExtra (by simpa using hr)
    (by simpa using hop) (by simp [Config.dlyCycles]), ← hnext]
  simp only [State.beginPhase_eq, hdly]

/-- The wait of a phase of an instruction, all its clocks. -/
theorem repeatExec_wait (i : Instr) (s : State) (n : Nat) (hop : s.seq.op = seqOpOf i) (hd : s.dly = n + 1) :
    repeatExec i (n + 1) s = .next { s with dly := 0, seq := s.seq.advance } := by
  induction n generalizing s with
  | zero => simp [repeatExec, exec_wait i s 0 hop hd, State.waitClock_zero]
  | succ n ih =>
    rw [repeatExec, exec_wait i s (n + 1) hop hd, State.waitClock_succ]
    exact ih { s with dly := n + 1 } hop rfl

/-- The events of one phase of an instruction: the actions as one change, then the next position. -/
theorem repeatExec_phase (i : Instr) (s : State) (hop : s.seq.op = seqOpOf i) (hd : s.dly = 0) :
    repeatExec i (1 + s.cfg.dlyCycles) s = .next
      { s with pins := phasePins (actions (seqOpOf i) s.seq.k s.data) s.pins, seq := s.seq.advance } := by
  rw [repeatExec_one_add (exec_phase i s hop hd), Config.dlyCycles,
    repeatExec_wait _ _ s.cfg.dlyExtra (by simpa using hop) (by simp [Config.dlyCycles])]
  simp only [State.beginPhase_eq, hd]

/-- `s` with the first `n` phases of an instruction made and phase `n` next. -/
def State.afterPhases (s : State) (i : Instr) (n : Nat) : State :=
  { s with pins := pinsAfter (seqOpOf i) s.data n s.pins, seq := ⟨seqOpOf i, n⟩ }

/-- The events of the phases before phase `n`, from phase 0 on. -/
theorem repeatExec_phases (i : Instr) (s : State) (hseq : s.seq = ⟨seqOpOf i, 0⟩) (hd : s.dly = 0) (n : Nat)
    (hn : n ≤ (seqOpOf i).last) :
    repeatExec i (n * (1 + s.cfg.dlyCycles)) s = .next (s.afterPhases i n) := by
  induction n with
  | zero => rw [Nat.zero_mul, State.afterPhases, ← hseq]; rfl
  | succ n ih =>
    have hinner : (s.afterPhases i n).seq.advance = ⟨seqOpOf i, n + 1⟩ := Seq.advance_of_lt hn
    rw [Nat.succ_mul, repeatExec_add _ _ _ _ _ (ih (Nat.le_of_succ_le hn))]
    refine (repeatExec_phase i (s.afterPhases i n) rfl hd).trans ?_
    rw [hinner]
    rfl

/-- The events of all phases of an operation, from phase 0 to the end of the last wait. -/
theorem repeatExec_operation (i : Instr) (s : State) (hseq : s.seq = ⟨seqOpOf i, 0⟩) (hd : s.dly = 0) :
    repeatExec i (phaseCount i * (1 + s.cfg.dlyCycles)) s = .next
      { s with pins := pinsAfter (seqOpOf i) s.data (phaseCount i) s.pins, seq := .idle } := by
  have hend : (s.afterPhases i (seqOpOf i).last).seq.advance = .idle := Seq.advance_of_last_le (Nat.le_refl _)
  rw [← last_add_one i, Nat.succ_mul, repeatExec_add _ _ _ _ _ (repeatExec_phases i s hseq hd _ (Nat.le_refl _))]
  refine (repeatExec_phase i (s.afterPhases i _) rfl hd).trans ?_
  rw [hend]
  rfl

theorem Pins.eq_of_fields {p q : Pins} (hclkOe : p.clkOe = q.clkOe) (hclkOut : p.clkOut = q.clkOut)
    (hdioOe : p.dioOe = q.dioOe) (hdioOut : p.dioOut = q.dioOut) : p = q := by
  cases p; cases q; simp_all

theorem byte_ne_zero_iff (b : Byte) : b ≠ 0 ↔ ∃ i, i < 8 ∧ operandBit b i = true := by
  constructor
  · intro hne
    by_contra hnone
    push Not at hnone
    exact hne (BitVec.eq_of_getLsbD_eq fun i hi => by simpa [operandBit] using hnone i hi)
  · rintro ⟨i, -, hbit⟩ rfl
    simp [operandBit] at hbit

/-- The phases of an operation, all made, leave the row of the table of R27. -/
theorem pinsAfter_phaseCount (i : Instr) (p : Pins) :
    pinsAfter (seqOpOf i) i.data (phaseCount i) p = postPins i p := by
  cases i with
  | start | stop | release => rfl
  | writeByte b =>
    change pinsAfter .writeByte b 26 p = _
    obtain ⟨hclkOe, hclkOut, hdioOe, -⟩ := pinsAfter_writeByte b p 25 (Nat.le_refl _)
    obtain ⟨hset, hkeep⟩ := pinsAfter_writeByte_latch b p 26 (Nat.le_refl _)
    have hlatch : (pinsAfter .writeByte b 26 p).dioOut = if b ≠ 0 then .high else p.dioOut := by
      split
      · next hne =>
        obtain ⟨i, hi, hbit⟩ := (byte_ne_zero_iff b).mp hne
        exact hset i hi (by omega) hbit
      · next hzero =>
        refine hkeep fun i hi _ => Bool.eq_false_iff.mpr fun hbit => hzero ?_
        exact (byte_ne_zero_iff b).mpr ⟨i, hi, hbit⟩
    exact Pins.eq_of_fields hclkOe hclkOut (hdioOe (by decide)) hlatch

/-- Settles O15: the acceptance, then the phases of the operation. -/
theorem operationPostState : Obligations.OperationPostState := by
  intro i s hop hdly
  rw [eventCount, repeatExec_one_add (exec_idle i s hop)]
  refine (repeatExec_operation i (s.accept (seqOpOf i) i.data) rfl hdly).trans ?_
  simp only [State.accept, pinsAfter_phaseCount, hdly]
  rfl

end Sys2Proof.Machine
end

section
/-! PROOFS. The lines and the primitives on them (`20_memory.md` R31 to R35): the line function row by row, and which
primitives the listings are made of. -/

namespace Sys2Proof.Machine

section Lines
variable {e : Env} {p : Pins}

theorem clkLine_of_driven (h : p.clkOe = .output) : clkLine e p = p.clkOut := by simp [clkLine, h]

theorem clkLine_of_released (h : p.clkOe = .input) : clkLine e p = e.clkReleased := by simp [clkLine, h]

theorem dioLine_of_unopposed (h : p.dioOe = .output) (hchip : e.chip = none ∨ e.chip = some p.dioOut) :
    dioLine e p = p.dioOut := by
  rcases hchip with hchip | hchip <;> simp [dioLine, h, hchip]

theorem dioLine_of_contended {l : Level} (h : p.dioOe = .output) (hchip : e.chip = some l) (hne : l ≠ p.dioOut) :
    dioLine e p = e.contended := by
  simp [dioLine, h, hchip, hne]

theorem dioLine_of_chip_drives {l : Level} (h : p.dioOe = .input) (hchip : e.chip = some l) : dioLine e p = l := by
  simp [dioLine, h, hchip]

theorem dioLine_of_undriven (h : p.dioOe = .input) (hchip : e.chip = none) : dioLine e p = .low := by
  simp [dioLine, h, hchip, dioPull]

end Lines

/-- Settles O40: the rows of the line function. -/
theorem lineFunction : Obligations.LineFunction := fun _ _ =>
  ⟨clkLine_of_driven, clkLine_of_released, dioLine_of_unopposed, fun _ => dioLine_of_chip_drives,
    dioLine_of_undriven, fun _ => dioLine_of_contended⟩

/-- The primitives `WRITE_BYTE` is made of; it reads the data line from phase 25 on (R72; log entry 5 past the last
phase). -/
theorem mem_writeByteActions {a : Prim} {k : Nat} {d : Byte} (h : a ∈ writeByteActions k d) :
    (∃ l v, a = .drive l v) ∨ (∃ l, a = .release l) ∨ (a = .readLevel .dio ∧ 25 ≤ k) := by
  unfold writeByteActions at h
  split at h
  · split at h
    · exact .inl ⟨_, _, List.mem_singleton.mp h⟩
    · rcases List.mem_pair.mp h with rfl | rfl
      · exact .inl ⟨_, _, rfl⟩
      · exact .inr (.inr ⟨rfl, by omega⟩)
  · split at h
    · exact .inl ⟨_, _, List.mem_singleton.mp h⟩
    · unfold dataPhase at h
      split at h
      · exact .inl ⟨_, _, List.mem_singleton.mp h⟩
      · exact .inr (.inl ⟨_, List.mem_singleton.mp h⟩)
    · exact .inl ⟨_, _, List.mem_singleton.mp h⟩

/-- The primitives the listings are made of. -/
theorem mem_actions {a : Prim} {op : SeqOp} {k : Nat} {d : Byte} (h : a ∈ actions op k d) :
    a = .setDir .dio .output ∨ (∃ l v, a = .drive l v) ∨ (∃ l, a = .release l) ∨
      (a = .readLevel .dio ∧ op = .writeByte ∧ 25 ≤ k) := by
  cases op with
  | idle => cases h
  | start => exact .inl (List.mem_singleton.mp h)
  | stop =>
    match k with
    | 0 => exact .inl (List.mem_singleton.mp h)
    | 1 => exact .inr (.inl ⟨_, _, List.mem_singleton.mp h⟩)
    | _ + 2 => exact .inr (.inr (.inl ⟨_, List.mem_singleton.mp h⟩))
  | writeByte =>
    rcases mem_writeByteActions h with hdrive | hrelease | ⟨hread, hk⟩
    · exact .inr (.inl hdrive)
    · exact .inr (.inr (.inl hrelease))
    · exact .inr (.inr (.inr ⟨hread, rfl, hk⟩))
  | release =>
    rcases List.mem_pair.mp h with hclk | hdio
    · exact .inr (.inr (.inl ⟨_, hclk⟩))
    · exact .inr (.inr (.inl ⟨_, hdio⟩))

theorem writeLevel_not_mem_actions (op : SeqOp) (k : Nat) (d : Byte) (l : Line) (v : Level) :
    Prim.writeLevel l v ∉ actions op k d := by
  intro h
  rcases mem_actions h with h | ⟨_, _, h⟩ | ⟨_, h⟩ | ⟨h, -⟩ <;> cases h

theorem readLevel_mem_actions {op : SeqOp} {k : Nat} {d : Byte} {l : Line} (h : Prim.readLevel l ∈ actions op k d) :
    op = .writeByte ∧ 25 ≤ k ∧ l = .dio := by
  rcases mem_actions h with h | ⟨_, _, h⟩ | ⟨_, h⟩ | ⟨h, hop, hk⟩ <;> cases h
  exact ⟨hop, hk, rfl⟩

/-- Settles O41: the only read of a line in a listing is the sample of phase 25. -/
theorem readLevelOnlyInAckSlot : Obligations.ReadLevelOnlyInAckSlot := by
  refine ⟨fun s l => ⟨rfl, rfl⟩, fun op k d l hlast hmem => ?slot, fun d => ?once⟩
  case slot =>
    obtain ⟨rfl, hk, hl⟩ := readLevel_mem_actions hmem
    exact ⟨rfl, Nat.le_antisymm hlast hk, hl⟩
  case once =>
    rw [writeByteActions_ackHigh]
    decide

/-- Settles O42: the writes by definition, what they show by the rows of the line function. -/
theorem pinPrimitives : Obligations.PinPrimitives := by
  refine ⟨fun p d v => ⟨rfl, rfl, rfl, rfl, rfl, rfl, rfl, rfl⟩, fun p e v hchip => ?lines,
    writeLevel_not_mem_actions⟩
  refine ⟨clkLine_of_driven rfl, dioLine_of_unopposed rfl (.inl hchip), fun hclk => ?_, fun hdio => ?_⟩
  · rw [clkLine_of_released hclk]; exact clkLine_of_released hclk
  · rw [dioLine_of_undriven hdio hchip]; exact dioLine_of_undriven hdio hchip

end Sys2Proof.Machine
end

section
/-! PROOFS. An operation in progress and the outside world (`20_memory.md` R36, R43; `30_encoding.md` R55): what stands at
the port makes no difference to it, and during a wait nothing short of reset moves a pin register. -/

namespace Sys2Proof.Machine

/-- Settles O18: a busy engine starts a phase or waits a clock, and neither looks at the port. -/
theorem portIgnoredWhileBusy : Obligations.PortIgnoredWhileBusy := by
  intro s t p hr hbusy hstep
  rw [State.busy_eq_true_iff] at hbusy
  rcases step_cases hstep with ⟨hrst, -⟩ | ⟨-, hidle, -⟩ | ⟨-, hidle, -⟩ | ⟨-, -, hdly, rfl⟩ | ⟨-, -, n, hdly, rfl⟩
  · simp [hr] at hrst
  · exact absurd hidle hbusy
  · exact absurd hidle hbusy
  · refine ⟨State.beginPhase_port _ _, ?_⟩
    rw [step_phase { s with port := p } hr hbusy hdly]
    simp only [State.beginPhase_eq]
  · refine ⟨State.waitClock_port _ _, ?_⟩
    rw [step_wait { s with port := p } n hr hbusy hdly]
    cases n <;> rfl

/-- A wait under way belongs to an operation in progress; a clock of it keeps that so. -/
theorem State.waitClock_busy_while_waiting {s : State} {n : Nat} (hop : s.seq.op ≠ .idle) :
    (s.waitClock n).dly ≠ 0 → (s.waitClock n).seq.op ≠ .idle := by
  cases n with
  | zero => exact fun hdly => absurd rfl hdly
  | succ n => exact fun _ => by rwa [State.waitClock_succ_seq]

/-- A run no longer than the wait under way, under any inputs short of reset: the pin registers are held, and `DLY` goes
down by one a step. -/
theorem runUnder_wait (is : List Inputs) (s : State) (hrst : ∀ i ∈ is, i.rst = false) (hlen : is.length ≤ s.dly)
    (hbusy : s.dly ≠ 0 → s.seq.op ≠ .idle) :
    ∃ u, runUnder is s = .next u ∧ u.pins = s.pins ∧ u.dly + is.length = s.dly := by
  induction is generalizing s with
  | nil => exact ⟨s, rfl, rfl, rfl⟩
  | cons i is ih =>
    obtain ⟨hi, his⟩ := List.forall_mem_cons.mp hrst
    rw [List.length_cons] at hlen
    obtain ⟨n, hdly⟩ := Nat.exists_eq_succ_of_ne_zero (by omega : s.dly ≠ 0)
    have hop : (s.withInputs i).seq.op ≠ .idle := hbusy (by omega)
    have hstep : stepUnder i s = .next ((s.withInputs i).waitClock n) := step_wait _ n hi hop hdly
    obtain ⟨u, hrun, hpins, hleft⟩ := ih ((s.withInputs i).waitClock n) his (by rw [State.waitClock_dly]; omega)
      (State.waitClock_busy_while_waiting hop)
    rw [State.waitClock_pins, State.withInputs_pins] at hpins
    rw [State.waitClock_dly] at hleft
    refine ⟨u, ?_, hpins, by rw [List.length_cons]; omega⟩
    rw [runUnder, hstep]
    exact hrun

/-- Settles O17: the phase start loads `DLY` with the length of the wait, and `runUnder_wait` is the wait. -/
theorem waitHoldsPins : Obligations.WaitHoldsPins := by
  intro s t is hstart hstep hlen hrst
  obtain ⟨hr, hop, hdly⟩ := s.atPhaseStart_iff.mp hstart
  obtain rfl : s.beginPhase (actions s.seq.op s.seq.k s.data) = t := by
    rwa [step_phase s hr hop hdly, Host.Outcome.next.injEq] at hstep
  obtain ⟨u, hrun, hpins, hleft⟩ := runUnder_wait is (s.beginPhase (actions s.seq.op s.seq.k s.data)) hrst
    (by rwa [State.beginPhase_dly]) (fun _ => by rwa [State.beginPhase_seq])
  rw [State.beginPhase_dly] at hleft
  refine ⟨u, hrun, hpins, fun hlt => Bool.eq_false_iff.mpr fun hnext => ?_⟩
  obtain ⟨-, -, hdone⟩ := u.atPhaseStart_iff.mp hnext
  omega

end Sys2Proof.Machine
end

section
/-! PROOFS. Programs (`20_memory.md` R41, R45, R46, R48): a run and its trace followed together, from the wait of a phase
to a list of command words. -/

namespace Sys2Proof.Machine

/-- `n` steps from `s` end in `t` and have the trace `ps`. -/
def RunsWith (n : Nat) (s : State) (ps : List Pins) (t : State) : Prop := run n s = .next t ∧ trace n s = ps

theorem RunsWith.nil (s : State) : RunsWith 0 s [] s := ⟨rfl, rfl⟩

theorem RunsWith.append {m n : Nat} {s t u : State} {ps qs : List Pins} (hfirst : RunsWith m s ps t)
    (hrest : RunsWith n t qs u) : RunsWith (m + n) s (ps ++ qs) u := by
  obtain ⟨hrun, rfl⟩ := hfirst
  obtain ⟨hrun', rfl⟩ := hrest
  exact ⟨(run_add m n s t hrun).trans hrun', trace_add m n s t hrun⟩

/-- A step is in the trace exactly when it starts a phase. -/
theorem runsWith_step {s t : State} (h : step s = .next t) :
    RunsWith 1 s (if s.atPhaseStart = true then [t.pins] else []) t :=
  ⟨run_one_add h 0, by simp [trace, h]⟩

/-- The clocks of a wait leave nothing in the trace. -/
theorem trace_wait (s : State) (n : Nat) (hr : s.rst = false) (hop : s.seq.op ≠ .idle) (hd : s.dly = n + 1) :
    trace (n + 1) s = [] := by
  have hwaiting : s.atPhaseStart = false := by simp [State.atPhaseStart, hd]
  induction n generalizing s with
  | zero => simp [trace, step_wait s 0 hr hop hd, hwaiting]
  | succ n ih =>
    simp only [trace, step_wait s (n + 1) hr hop hd, hwaiting, State.waitClock_succ]
    exact ih { s with dly := n + 1 } hr hop rfl (by simp [State.atPhaseStart])

/-- The wait of a phase, all its clocks: nothing in the trace. -/
theorem runsWith_wait (s : State) (n : Nat) (hr : s.rst = false) (hop : s.seq.op ≠ .idle) (hd : s.dly = n + 1) :
    RunsWith (n + 1) s [] { s with dly := 0, seq := s.seq.advance } :=
  ⟨run_wait s n hr hop hd, trace_wait s n hr hop hd⟩

/-- A phase from its start to the end of its wait, the next position following: its one change is its trace. -/
theorem runsWith_phase (s : State) (hr : s.rst = false) (hop : s.seq.op ≠ .idle) (hd : s.dly = 0) :
    RunsWith (1 + s.cfg.dlyCycles) s [phasePins (actions s.seq.op s.seq.k s.data) s.pins]
      { s with pins := phasePins (actions s.seq.op s.seq.k s.data) s.pins, seq := s.seq.advance } := by
  have hstart := runsWith_step (step_phase s hr hop hd)
  rw [if_pos (s.atPhaseStart_iff.mpr ⟨hr, hop, hd⟩), State.beginPhase_eq] at hstart
  have hwait := runsWith_wait
    { s with pins := phasePins (actions s.seq.op s.seq.k s.data) s.pins, dly := s.cfg.dlyCycles }
    s.cfg.dlyExtra hr hop rfl
  rw [← hd] at hwait
  exact hstart.append hwait

theorem pinsTrace_succ (op : SeqOp) (d : Byte) (n : Nat) (p : Pins) :
    pinsTrace op d (n + 1) p = pinsTrace op d n p ++ [pinsAfter op d (n + 1) p] := by
  simp [pinsTrace, List.range_succ]

/-- The phases of an instruction before phase `n`, from phase 0 on. -/
theorem runsWith_phases (i : Instr) (s : State) (hr : s.rst = false) (hseq : s.seq = ⟨seqOpOf i, 0⟩) (hd : s.dly = 0)
    (n : Nat) (hn : n ≤ (seqOpOf i).last) :
    RunsWith (n * (1 + s.cfg.dlyCycles)) s (pinsTrace (seqOpOf i) s.data n s.pins) (s.afterPhases i n) := by
  induction n with
  | zero => rw [Nat.zero_mul, State.afterPhases, ← hseq]; exact .nil s
  | succ n ih =>
    have hinner : (s.afterPhases i n).seq.advance = ⟨seqOpOf i, n + 1⟩ := Seq.advance_of_lt hn
    have hphase := runsWith_phase (s.afterPhases i n) hr (seqOpOf_ne_idle i) hd
    rw [hinner] at hphase
    rw [Nat.succ_mul, pinsTrace_succ]
    exact (ih (Nat.le_of_succ_le hn)).append hphase

/-- All phases of an operation, from phase 0 to the end of the last wait: its listing is the trace. -/
theorem runsWith_operation (i : Instr) (s : State) (hr : s.rst = false) (hseq : s.seq = ⟨seqOpOf i, 0⟩)
    (hdata : s.data = i.data) (hd : s.dly = 0) :
    RunsWith (phaseCount i * (1 + s.cfg.dlyCycles)) s (opTrace i s.pins)
      { s with pins := postPins i s.pins, seq := .idle } := by
  have hend : (s.afterPhases i (seqOpOf i).last).seq.advance = .idle := Seq.advance_of_last_le (Nat.le_refl _)
  have hphase := runsWith_phase (s.afterPhases i (seqOpOf i).last) hr (seqOpOf_ne_idle i) hd
  rw [hend] at hphase
  have hall := (runsWith_phases i s hr hseq hd _ (Nat.le_refl _)).append hphase
  rw [opTrace, ← pinsAfter_phaseCount, ← hdata, ← last_add_one i, Nat.succ_mul, pinsTrace_succ]
  exact hall

theorem decodeWord_data (w : CmdWord) : (decodeWord w).data = dataField w := by
  unfold decodeWord
  split_ifs <;> rfl

/-- `s` after the command words `ws`, with `rest` still presented. -/
def State.afterWords (s : State) (ws rest : List CmdWord) : State :=
  { s with pins := postPinsAll ws s.pins, data := lastData ws s.data, port := rest }

/-- A command word from its acceptance to the end of its last wait. -/
theorem runsWith_word (w : CmdWord) (rest : List CmdWord) (s : State) (hr : s.rst = false) (hseq : s.seq = .idle)
    (hd : s.dly = 0) (hport : s.port = w :: rest) :
    RunsWith (eventCount s.cfg (decodeWord w)) s (opTrace (decodeWord w) s.pins) (s.afterWords [w] rest) := by
  have hop : s.seq.op = .idle := by rw [hseq, Seq.idle_op]
  have haccept := runsWith_step (step_accept s w rest hr hop hport)
  rw [if_neg fun hstart => (s.atPhaseStart_iff.mp hstart).2.1 hop] at haccept
  have hphases := runsWith_operation (decodeWord w) (s.accept (seqOpOf (decodeWord w)) (decodeWord w).data)
    hr rfl rfl hd
  have hend : { s.accept (seqOpOf (decodeWord w)) (decodeWord w).data with
      pins := postPins (decodeWord w) s.pins, seq := .idle } = s.afterWords [w] rest := by
    rw [State.accept, hport, decodeWord_data, State.afterWords, hseq]
    rfl
  rw [← hend]
  exact haccept.append hphases

/-- The command words `ws`, one after the other. -/
theorem runsWith_words (ws rest : List CmdWord) (s : State) (hr : s.rst = false) (hseq : s.seq = .idle) (hd : s.dly = 0)
    (hport : s.port = ws ++ rest) :
    RunsWith (eventsOf s.cfg ws) s (programTrace ws s.pins) (s.afterWords ws rest) := by
  induction ws generalizing s with
  | nil =>
    have hnone : s.afterWords [] rest = s := by rw [← List.nil_append rest, ← hport]; rfl
    rw [hnone]
    exact .nil s
  | cons w ws ih =>
    have hword := runsWith_word w (ws ++ rest) s hr hseq hd hport
    exact hword.append (ih (s.afterWords [w] (ws ++ rest)) hr hseq hd rfl)

theorem opTrace_length (i : Instr) (p : Pins) : (opTrace i p).length = phaseCount i := by simp [opTrace, pinsTrace]

theorem programTrace_length (ws : List CmdWord) (p : Pins) :
    (programTrace ws p).length = (ws.map fun w => phaseCount (decodeWord w)).sum := by
  induction ws generalizing p with
  | nil => rfl
  | cons w ws ih => simp [programTrace, opTrace_length, ih]

/-- Settles O30: by `runsWith_words`. -/
theorem programPostState : Obligations.ProgramPostState := fun ws rest s hr hseq hd hport =>
  (runsWith_words ws rest s hr hseq hd hport).1

/-- Settles O31: by `runsWith_words`; a listing has one pin state for each phase. -/
theorem programTraceIsTheListings : Obligations.ProgramTraceIsTheListings := by
  intro ws rest s hr hseq hd hport
  obtain ⟨-, htrace⟩ := runsWith_words ws rest s hr hseq hd hport
  rw [htrace]
  exact ⟨rfl, programTrace_length ws s.pins⟩

end Sys2Proof.Machine
end

section
/-! PROOFS. The command word (`30_encoding.md` R50 to R54): its two fields, and that the decoder and the encoder undo
each other. -/

namespace Sys2Proof

open Machine

/-- The bits `[9:8]` of an instruction's command word: its row of the opcode table (R51). -/
def Instr.opcode : Instr → BitVec 2
  | .start _ => 0b00
  | .stop _ => 0b01
  | .writeByte _ => 0b10
  | .release _ => 0b11

theorem encode_eq (i : Instr) : encode i = i.opcode ++ i.data := by cases i <;> rfl

@[simp] theorem opField_append (op : BitVec 2) (d : Byte) : opField (op ++ d) = op := BitVec.extractLsb'_append_eq_left

@[simp] theorem dataField_append (op : BitVec 2) (d : Byte) : dataField (op ++ d) = d :=
  BitVec.extractLsb'_append_eq_right

/-- The two fields are the whole word (R50). -/
theorem opField_append_dataField (c : CmdWord) : opField c ++ dataField c = c :=
  BitVec.extractLsb'_append_extractLsb' (w := 2) (len := 8)

theorem dataField_toNat (c : CmdWord) : (dataField c).toNat = c.toNat % 256 := by simp [dataField]

theorem opField_cases (c : CmdWord) : opField c = 0b00 ∨ opField c = 0b01 ∨ opField c = 0b10 ∨ opField c = 0b11 := by
  generalize opField c = op
  revert op
  decide

/-- The mask `0x300` of the opcode table keeps the `op` field (R51). -/
theorem and_mask_eq_iff (c : CmdWord) (op : BitVec 2) : c &&& 0x300 = op ++ (0 : Byte) ↔ opField c = op := by
  have hmasked : c &&& 0x300 = opField c ++ (0 : Byte) := by
    calc c &&& 0x300
      _ = (opField c ++ dataField c) &&& (BitVec.allOnes 2 ++ (0 : Byte)) := by
        rw [opField_append_dataField]; rfl
      _ = opField c ++ (0 : Byte) := by
        rw [BitVec.and_append, BitVec.and_allOnes]; simp
  rw [hmasked, BitVec.append_left_inj]

section DecodeByField
variable {c : CmdWord}

theorem decodeWord_of_start (h : opField c = 0b00) : decodeWord c = .start (dataField c) := by simp [decodeWord, h]
theorem decodeWord_of_stop (h : opField c = 0b01) : decodeWord c = .stop (dataField c) := by simp [decodeWord, h]
theorem decodeWord_of_writeByte (h : opField c = 0b10) : decodeWord c = .writeByte (dataField c) := by
  simp [decodeWord, h]
theorem decodeWord_of_release (h : opField c = 0b11) : decodeWord c = .release (dataField c) := by
  simp [decodeWord, h]

end DecodeByField

@[simp] theorem decodeWord_opcode (c : CmdWord) : (decodeWord c).opcode = opField c := by
  rcases opField_cases c with h | h | h | h
  · rw [decodeWord_of_start h, h]; rfl
  · rw [decodeWord_of_stop h, h]; rfl
  · rw [decodeWord_of_writeByte h, h]; rfl
  · rw [decodeWord_of_release h, h]; rfl

@[simp] theorem encode_decodeWord (c : CmdWord) : encode (decodeWord c) = c := by
  rw [encode_eq, decodeWord_opcode, decodeWord_data, opField_append_dataField]

@[simp] theorem decodeWord_encode (i : Instr) : decodeWord (encode i) = i := by
  cases i with
  | start d => simpa [encode] using decodeWord_of_start (opField_append 0b00 d)
  | stop d => simpa [encode] using decodeWord_of_stop (opField_append 0b01 d)
  | writeByte b => simpa [encode] using decodeWord_of_writeByte (opField_append 0b10 b)
  | release d => simpa [encode] using decodeWord_of_release (opField_append 0b11 d)

theorem isCommandWord_iff (n : Nat) : isCommandWord n = true ↔ n < 1024 := decide_eq_true_iff

theorem decode_of_lt {n : Nat} (h : n < 1024) : decode n = .ok (decodeWord (BitVec.ofNat 10 n)) :=
  decode_eq_ok_iff.mpr ⟨(isCommandWord_iff n).mpr h, rfl⟩

theorem decode_of_wider {n : Nat} (h : 1024 ≤ n) : decode n = .error .widerThanCommandWord :=
  if_neg fun hcmd => Nat.not_lt.mpr h ((isCommandWord_iff n).mp hcmd)

theorem decode_encode (i : Instr) : decode (encode i).toNat = .ok i := by
  rw [decode_of_lt (encode i).isLt, BitVec.ofNat_toNat, BitVec.setWidth_eq, decodeWord_encode]

/-- The host's entry gives a command word the same meaning in any field of at least ten bits. -/
theorem decodeTableWord_encode {nbits : Nat} (h : 10 ≤ nbits) (i : Instr) :
    decodeTableWord nbits (encode i).toNat = some i := by
  have hfits : (encode i).toNat < 2 ^ nbits := (encode i).isLt.trans_le (Nat.pow_le_pow_right (by decide) h)
  rw [decodeTableWord_eq_some_iff, Nat.mod_eq_of_lt hfits, decode_encode]

/-- Settles O4: the fields of the encoding are the operation and its operand, and the decoder reads the fields. -/
theorem encodeThenDecodeGivesItBack : Obligations.EncodeThenDecodeGivesItBack := fun i _ =>
  ⟨decode_encode i, decodeTableWord_encode (by decide) i⟩

/-- Settles O1: each of the words is the encoding of the instruction the table gives. -/
theorem decodeSampleWords : Obligations.DecodeSampleWords :=
  ⟨decode_encode (.start 0x00), decode_encode (.start 0xFF), decode_encode (.stop 0x00), decode_encode (.stop 0xA5),
    decode_encode (.writeByte 0x00), decode_encode (.writeByte 0x40), decode_encode (.writeByte 0xFF),
    decode_encode (.release 0x00), decode_encode (.release 0xFF)⟩

/-- Settles O2: a match under the mask fixes the `op` field, which has four values. -/
theorem opFieldSelectsOperation : Obligations.OpFieldSelectsOperation := by
  intro c
  have hstart : c &&& 0x300 = 0x000 ↔ opField c = 0b00 := and_mask_eq_iff c 0b00
  have hstop : c &&& 0x300 = 0x100 ↔ opField c = 0b01 := and_mask_eq_iff c 0b01
  have hwrite : c &&& 0x300 = 0x200 ↔ opField c = 0b10 := and_mask_eq_iff c 0b10
  have hrelease : c &&& 0x300 = 0x300 ↔ opField c = 0b11 := and_mask_eq_iff c 0b11
  rw [hstart, hstop, hwrite, hrelease]
  exact ⟨dataField c, dataField_toNat c, decodeWord_of_start, decodeWord_of_stop, decodeWord_of_writeByte,
    decodeWord_of_release, opField_cases c⟩

end Sys2Proof
end

section
/-! PROOFS. The events of a decoded command word (`30_encoding.md` R53, R54): no word traps, and what the data field of
`START`, `STOP` and `RELEASE` can change. -/

namespace Sys2Proof.Machine

/-- Every event of every instruction answers a next state (R89). -/
theorem exec_answers_next (i : Instr) (s : State) : ∃ t, exec i s = .next t := by
  by_cases hidle : s.seq.op = .idle
  · exact ⟨_, exec_idle i s hidle⟩
  · by_cases hop : s.seq.op = seqOpOf i
    · cases hdly : s.dly with
      | zero => exact ⟨_, exec_phase i s hop hdly⟩
      | succ n => exact ⟨_, exec_wait i s n hop hdly⟩
    · exact ⟨_, exec_other i s hidle hop⟩

/-- Settles O3: below 1024 the decoder is total and the encoder undoes it; above, the pattern is no command word. -/
theorem everyCommandWordDecodes : Obligations.EveryCommandWordDecodes := by
  refine ⟨fun n hn => ⟨_, decode_of_lt hn, ?_, exec_answers_next _⟩, fun _ => decode_of_wider⟩
  rw [encode_decodeWord, BitVec.toNat_ofNat, Nat.mod_eq_of_lt hn]

/-- Two instructions of one operation differ in the next state only by the field `Accept` copies to `DATA` (R12). -/
theorem exec_of_same_op {i j : Instr} {s t : State} (hop : seqOpOf j = seqOpOf i) (h : exec i s = .next t) :
    exec j s = .next (if s.seq.op = .idle then { t with data := j.data } else t) := by
  rcases exec_cases h with ⟨hidle, rfl⟩ | ⟨hown, hdly, rfl⟩ | ⟨hown, n, hdly, rfl⟩ | ⟨hbusy, hother, rfl⟩
  · rw [if_pos hidle, exec_idle j s hidle, hop]; rfl
  · rw [if_neg (hown ▸ seqOpOf_ne_idle i), exec_phase j s (hown.trans hop.symm) hdly, hop]
  · rw [if_neg (hown ▸ seqOpOf_ne_idle i), exec_wait j s n (hown.trans hop.symm) hdly]
  · rw [if_neg hbusy, exec_other j t hbusy (hop ▸ hother)]

theorem exec_idle_data {i : Instr} {s t : State} (hidle : s.seq.op = .idle) (h : exec i s = .next t) :
    t.data = i.data := by
  rw [exec_idle i s hidle, Host.Outcome.next.injEq] at h
  rw [← h, State.accept_data]

/-- `WRITE_BYTE` is the one operation whose phases read `DATA` (R53, R61, R62, R85). -/
theorem actions_ignore_data {op : SeqOp} (h : op ≠ .writeByte) (k : Nat) (d x : Byte) :
    actions op k d = actions op k x := by
  cases op with
  | idle | start | stop | release => rfl
  | writeByte => exact absurd rfl h

/-- On a busy engine an instruction other than `WRITE_BYTE` carries `DATA` along and nothing depends on it. -/
theorem exec_busy_ignores_data {i : Instr} {s t : State} (x : Byte) (hi : seqOpOf i ≠ .writeByte)
    (hbusy : s.seq.op ≠ .idle) (h : exec i s = .next t) :
    exec i { s with data := x } = .next { t with data := x } := by
  rcases exec_cases h with ⟨hidle, -⟩ | ⟨hown, hdly, rfl⟩ | ⟨hown, n, hdly, rfl⟩ | ⟨-, hother, rfl⟩
  · exact absurd hidle hbusy
  · rw [exec_phase i { s with data := x } hown hdly, actions_ignore_data hi _ x s.data]
    simp only [State.beginPhase_eq]
  · rw [exec_wait i { s with data := x } n hown hdly]
    cases n <;> rfl
  · exact exec_other i { t with data := x } hbusy hother

/-- `START`, `STOP` and `RELEASE`, each with any data field, are three operations other than `WRITE_BYTE`. -/
theorem framing_op_data {mk : Byte → Instr} (h : mk ∈ [Instr.start, Instr.stop, Instr.release]) :
    ∃ op, op ≠ .writeByte ∧ ∀ d, seqOpOf (mk d) = op ∧ (mk d).data = d := by
  simp only [List.mem_cons, List.not_mem_nil, or_false] at h
  rcases h with rfl | rfl | rfl
  · exact ⟨.start, by decide, fun _ => ⟨rfl, rfl⟩⟩
  · exact ⟨.stop, by decide, fun _ => ⟨rfl, rfl⟩⟩
  · exact ⟨.release, by decide, fun _ => ⟨rfl, rfl⟩⟩

/-- Settles O5: the field reaches the state only at acceptance, and no phase of these operations reads `DATA`. -/
theorem framingDataFieldIgnored : Obligations.FramingDataFieldIgnored := by
  refine ⟨rfl, rfl, rfl, fun mk hmk => ?_⟩
  obtain ⟨op, hop, hmk⟩ := framing_op_data hmk
  refine ⟨fun d d' s t h => ?otherField, fun d s t hidle h => ?accepted, fun d s t x hbusy h => ?running⟩
  case otherField =>
    obtain ⟨hopD, -⟩ := hmk d
    obtain ⟨hopD', hdata⟩ := hmk d'
    simpa only [hdata] using exec_of_same_op (hopD'.trans hopD.symm) h
  case accepted =>
    obtain ⟨-, hdata⟩ := hmk d
    rw [exec_idle_data hidle h, hdata]
  case running =>
    obtain ⟨hopD, -⟩ := hmk d
    exact exec_busy_ignores_data x (hopD ▸ hop) hbusy h

end Sys2Proof.Machine
end

section
/-! PROOFS. The framing operations `START` and `STOP` (`40_framing.md` R61, R62, R66): their phases one by one, their
listings, and what the two lines show of them. -/

namespace Sys2Proof.Machine

section Phases
variable (k : Nat) (d : Byte) (p : Pins)

theorem phasePins_start : phasePins (actions .start k d) p = { p with dioOe := .output } := rfl

theorem phasePins_stop_data : phasePins (actions .stop 0 d) p = { p with dioOe := .output } := rfl

theorem phasePins_stop_clock : phasePins (actions .stop 1 d) p = { p with clkOe := .output, clkOut := .high } := rfl

theorem phasePins_stop_release : phasePins (actions .stop 2 d) p = { p with dioOe := .input } := rfl

/-- The listing of `START` (R61). -/
theorem opTrace_start : opTrace (.start d) p = [⟨p.clkOe, p.clkOut, .output, p.dioOut⟩] := rfl

/-- The listing of `STOP` (R62). -/
theorem opTrace_stop :
    opTrace (.stop d) p =
      [⟨p.clkOe, p.clkOut, .output, p.dioOut⟩, ⟨.output, .high, .output, p.dioOut⟩,
        ⟨.output, .high, .input, p.dioOut⟩] := rfl

end Phases

/-- A phase start of the operation in progress, written out. -/
theorem exec_phase_eq (i : Instr) (s : State) (hop : s.seq.op = seqOpOf i) (hdly : s.dly = 0) :
    exec i s = .next
      { s with pins := phasePins (actions (seqOpOf i) s.seq.k s.data) s.pins, dly := s.cfg.dlyCycles } := by
  rw [exec_phase i s hop hdly, State.beginPhase_eq]

/-- Settles O8: the phase start of `START`. -/
theorem startPhase : Obligations.StartPhase := by
  intro d s hseq hdly
  have hop : s.seq.op = .start := by rw [hseq]
  rw [exec_phase_eq (.start d) s hop hdly, seqOpOf, phasePins_start]

/-- Settles O9: the phase start of `STOP` at each of its positions. -/
theorem stopPhases : Obligations.StopPhases := by
  intro d s hop hdly
  rw [exec_phase_eq (.stop d) s hop hdly, seqOpOf]
  refine ⟨fun hk => ?data, fun hk => ?clock, fun hk => ?release⟩
  case data => rw [hk, phasePins_stop_data]
  case clock => rw [hk, phasePins_stop_clock]
  case release => rw [hk, phasePins_stop_release]

/-- The trace of one instruction presented to an idle engine is its listing (R45, R48). -/
theorem trace_of_presented (i : Instr) (rest : List CmdWord) (s : State) (hr : s.rst = false) (hseq : s.seq = .idle)
    (hdly : s.dly = 0) (hport : s.port = encode i :: rest) : trace (eventCount s.cfg i) s = opTrace i s.pins := by
  obtain ⟨-, htrace⟩ := runsWith_word (encode i) rest s hr hseq hdly hport
  rwa [decodeWord_encode] at htrace

/-- Both lines driven, the chip not driving: an observer sees the two latches. -/
theorem lines_of_driven {e : Env} {p : Pins} (hchip : e.chip = none) (hclk : p.clkOe = .output)
    (hdio : p.dioOe = .output) : (clkLine e p, dioLine e p) = (p.clkOut, p.dioOut) := by
  rw [clkLine_of_driven hclk, dioLine_of_unopposed hdio (.inl hchip)]

/-- The data line released, the chip not driving: an observer sees the clock latch and the pull-down. -/
theorem lines_of_dio_released {e : Env} {p : Pins} (hchip : e.chip = none) (hclk : p.clkOe = .output)
    (hdio : p.dioOe = .input) : (clkLine e p, dioLine e p) = (p.clkOut, .low) := by
  rw [clkLine_of_driven hclk, dioLine_of_undriven hdio hchip]

/-- Settles O44: the lines at each pin state of the two listings, the clock driven `HIGH` from the start. -/
theorem bracketEdges : Obligations.BracketEdges := by
  intro s e d rest hr hseq hdly hchip hclkOe hclkOut
  refine ⟨fun hdioOe => dioLine_of_undriven hdioOe hchip, fun hport => ?start, fun hport => ?stop⟩
  case start =>
    rw [trace_of_presented (.start d) rest s hr hseq hdly hport, opTrace_start, hclkOe, hclkOut]
    simp only [List.map_cons, List.map_nil, lines_of_driven hchip]
  case stop =>
    rw [trace_of_presented (.stop d) rest s hr hseq hdly hport, opTrace_stop, hclkOe, hclkOut]
    simp only [List.map_cons, List.map_nil, lines_of_driven hchip, lines_of_dio_released hchip]

end Sys2Proof.Machine
end

section
/-! PROOFS. The byte transfer `WRITE_BYTE` phase by phase (`41_byte_transfer.md` R67 to R71, R75): its 26 positions, the
pin writes of each, and how many phases perform a primitive. -/

namespace Sys2Proof.Machine

section Phases
variable {i : Nat} (d : Byte) (p : Pins)

theorem phasePins_writeByte_low (h : i < 8) :
    phasePins (actions .writeByte (3 * i) d) p = { p with clkOe := .output, clkOut := .low } := by
  rw [actions, writeByteActions_low d h]; rfl

theorem phasePins_writeByte_data (h : i < 8) :
    phasePins (actions .writeByte (3 * i + 1) d) p =
      if d.getLsbD i then { p with dioOe := .output, dioOut := .high } else { p with dioOe := .input } := by
  rw [actions, writeByteActions_data d h, operandBit]
  cases d.getLsbD i <;> rfl

theorem phasePins_writeByte_high (h : i < 8) :
    phasePins (actions .writeByte (3 * i + 2) d) p = { p with clkOe := .output, clkOut := .high } := by
  rw [actions, writeByteActions_high d h]; rfl

theorem phasePins_writeByte_ackLow :
    phasePins (actions .writeByte 24 d) p = { p with clkOe := .output, clkOut := .low } := rfl

theorem phasePins_writeByte_ackHigh :
    phasePins (actions .writeByte 25 d) p = { p with clkOe := .output, clkOut := .high } := rfl

end Phases

/-- Settles O10: the phase start of `WRITE_BYTE` at each position of a triple and of the acknowledgment slot. -/
theorem writeBytePhases : Obligations.WriteBytePhases := by
  intro b s hop hdly
  rw [exec_phase_eq (.writeByte b) s hop hdly, seqOpOf]
  refine ⟨fun i hi => ⟨fun hk => ?low, fun hk hbit => ?one, fun hk hbit => ?zero, fun hk => ?high⟩,
    fun hk => ?ackLow, fun hk => ?ackHigh⟩
  case low => rw [hk, phasePins_writeByte_low _ _ hi]
  case one => rw [hk, phasePins_writeByte_data _ _ hi, if_pos hbit]
  case zero => rw [hk, phasePins_writeByte_data _ _ hi, if_neg (Bool.eq_false_iff.mp hbit)]
  case high => rw [hk, phasePins_writeByte_high _ _ hi]
  case ackLow => rw [hk, phasePins_writeByte_ackLow]
  case ackHigh => rw [hk, phasePins_writeByte_ackHigh]

/-- The effect of a `WRITE_BYTE` phase on the pin registers, as one function of its position (R75). -/
theorem phasePins_writeByteActions (k : Nat) (d : Byte) (p : Pins) :
    phasePins (writeByteActions k d) p =
      if 24 ≤ k then (if k = 24 then p.drive .clk .low else p.drive .clk .high)
      else if k % 3 = 0 then p.drive .clk .low
      else if k % 3 = 1 then (if d.getLsbD (k / 3) then p.drive .dio .high else p.release .dio)
      else p.drive .clk .high := by
  unfold writeByteActions
  split
  · split <;> rfl
  · have hrem : k % 3 < 3 := Nat.mod_lt _ (by decide)
    rcases (by omega : k % 3 = 0 ∨ k % 3 = 1 ∨ k % 3 = 2) with hlow | hdata | hhigh
    · simp [hlow, Prim.onPins]
    · simp only [hdata, operandBit]
      cases d.getLsbD (k / 3) <;> rfl
    · simp [hhigh, Prim.onPins]

/-- A count over `3 * n` positions, taken by the three places of a triple. -/
theorem countP_range_triples (f : Nat → Bool) (n : Nat) :
    (List.range (3 * n)).countP f =
      (List.range n).countP (fun i => f (3 * i)) + (List.range n).countP (fun i => f (3 * i + 1)) +
        (List.range n).countP (fun i => f (3 * i + 2)) := by
  induction n with
  | zero => rfl
  | succ n ih =>
    have htriple : List.range (3 * (n + 1)) = List.range (3 * n) ++ [3 * n, 3 * n + 1, 3 * n + 2] := by
      simp [Nat.mul_succ, List.range_succ]
    rw [htriple]
    simp only [List.range_succ, List.countP_append, List.countP_cons, List.countP_nil, ih]
    omega

/-- How many phases of `WRITE_BYTE` have primitives of a kind `f`: counted over the three places of the triples and the
two phases of the acknowledgment slot. -/
theorem countP_writeByteActions (f : List Prim → Bool) (d : Byte) :
    (List.range 26).countP (fun k => f (writeByteActions k d)) =
      (List.range 8).countP (fun _ => f [.drive .clk .low]) +
        (List.range 8).countP (fun i => f (dataPhase (d.getLsbD i))) +
        (List.range 8).countP (fun _ => f [.drive .clk .high]) +
        [[.drive .clk .low], [.drive .clk .high, .readLevel .dio]].countP f := by
  have hslot : (List.range 26).countP (fun k => f (writeByteActions k d)) =
      (List.range (3 * 8)).countP (fun k => f (writeByteActions k d)) +
        [[.drive .clk .low], [.drive .clk .high, .readLevel .dio]].countP f :=
    List.countP_append (l₁ := List.range (3 * 8)) (l₂ := [24, 25])
  rw [hslot, countP_range_triples]
  refine congrArg (· + _) (congrArg₂ (· + ·) (congrArg₂ (· + ·) (List.countP_congr fun i hi => ?low)
    (List.countP_congr fun i hi => ?data)) (List.countP_congr fun i hi => ?high))
  case low => rw [writeByteActions_low d (List.mem_range.mp hi)]
  case data => rw [writeByteActions_data d (List.mem_range.mp hi), operandBit]
  case high => rw [writeByteActions_high d (List.mem_range.mp hi)]

section DataPhase
variable (bit : Bool)

@[simp] theorem drive_dio_mem_dataPhase : Prim.drive .dio .high ∈ dataPhase bit ↔ bit = true := by
  cases bit <;> simp [dataPhase]

@[simp] theorem release_dio_mem_dataPhase : Prim.release .dio ∈ dataPhase bit ↔ bit = false := by
  cases bit <;> simp [dataPhase]

@[simp] theorem drive_clk_not_mem_dataPhase (v : Level) : Prim.drive .clk v ∉ dataPhase bit := by
  cases bit <;> simp [dataPhase]

end DataPhase

/-- The bits of a byte that are 0 are the others of its eight. -/
theorem countP_zero_bits (d : Byte) :
    (List.range 8).countP (fun i => !d.getLsbD i) =
      8 - (List.range 8).countP (fun i => d.getLsbD i) := by
  have hsplit := (List.range 8).length_eq_countP_add_countP (fun i => d.getLsbD i)
  simp only [List.length_range, decide_not, Bool.decide_eq_true] at hsplit
  omega

/-- Settles O47: the function by `phasePins_writeByteActions`; the counts by `countP_writeByteActions`. -/
theorem writeBytePhaseFunction : Obligations.WriteBytePhaseFunction := by
  intro d
  refine ⟨fun k _ => funext (phasePins_writeByteActions k d), ?clkLow, ?clkHigh, ?dioHigh, ?dioReleased⟩
  case clkLow => simp [countP_writeByteActions (fun as => decide (Prim.drive .clk .low ∈ as))]
  case clkHigh => simp [countP_writeByteActions (fun as => decide (Prim.drive .clk .high ∈ as))]
  case dioHigh => simp [countP_writeByteActions (fun as => decide (Prim.drive .dio .high ∈ as))]
  case dioReleased => simp [countP_writeByteActions (fun as => decide (Prim.release .dio ∈ as)), countP_zero_bits]

end Sys2Proof.Machine
end

section
/-! PROOFS. The data line during a `WRITE_BYTE` (`41_byte_transfer.md` R68, R70, R73): the invariant gives the pin
registers at every position, and from them when the line moves and what it is left at. -/

namespace Sys2Proof.Machine

/-- The bit that the data line shows once `m` phases of a `WRITE_BYTE` are made, the first data phase among them. -/
def lastBitSent (d : Byte) (m : Nat) : Bool := operandBit d (min 7 ((m - 2) / 3))

theorem lastBitSent_after_triple (d : Byte) {i : Nat} (h : i < 8) : lastBitSent d (3 * i + 3) = d.getLsbD i := by
  have hbit : min 7 ((3 * i + 3 - 2) / 3) = i := by omega
  rw [lastBitSent, hbit, operandBit]

/-- Once the eighth data phase is made, bit 7 stays (R73). -/
theorem lastBitSent_of_le (d : Byte) {m : Nat} (h : 23 ≤ m) : lastBitSent d m = d.getLsbD 7 := by
  have hbit : min 7 ((m - 2) / 3) = 7 := by omega
  rw [lastBitSent, hbit, operandBit]

/-- The data line from the first data phase on: a 1 is driven `HIGH`, a 0 is released (R69, R70). -/
theorem pinsAfter_writeByte_dio (d : Byte) (p : Pins) {m : Nat} (h2 : 2 ≤ m) (h26 : m ≤ 26) :
    (lastBitSent d m = true → (pinsAfter .writeByte d m p).dioOe = .output ∧
      (pinsAfter .writeByte d m p).dioOut = .high) ∧
    (lastBitSent d m = false → (pinsAfter .writeByte d m p).dioOe = .input) := by
  obtain ⟨n, rfl⟩ := Nat.exists_eq_succ_of_ne_zero (by omega : m ≠ 0)
  obtain ⟨-, -, hdioOe, hdioOut⟩ := pinsAfter_writeByte d p n (by omega)
  have hbit : operandBit d (min 7 ((n - 1) / 3)) = lastBitSent d (n + 1) := rfl
  rw [hbit] at hdioOe hdioOut
  refine ⟨fun hone => ⟨?_, hdioOut (by omega) hone⟩, fun hzero => ?_⟩
  · rw [hdioOe (by omega), hone, if_pos rfl]
  · rw [hdioOe (by omega), hzero, if_neg (by decide)]

/-- With position `K` next or under way, `K` or `K + 1` phases are made. -/
theorem State.phasesMade_bounds (s : State) : s.seq.k ≤ s.phasesMade ∧ s.phasesMade ≤ s.seq.k + 1 := by
  unfold State.phasesMade
  split <;> omega

namespace EngineInv
variable {s : State}

/-- The data line inside a `WRITE_BYTE`, its first data phase made. -/
theorem writeByte_dio (h : EngineInv s) (hop : s.seq.op = .writeByte) (hmade : 2 ≤ s.phasesMade) :
    (lastBitSent s.data s.phasesMade = true → s.pins.dioOe = .output ∧ s.pins.dioOut = .high) ∧
    (lastBitSent s.data s.phasesMade = false → s.pins.dioOe = .input) := by
  obtain ⟨p, hp⟩ := h.pins_follow
  obtain ⟨-, hle⟩ := s.phasesMade_bounds
  have hk := h.k_in_range
  rw [hop, SeqOp.last] at hk
  rw [hp, hop]
  exact pinsAfter_writeByte_dio s.data p hmade (by omega)

/-- Before a data phase of a `WRITE_BYTE` the clock is driven `LOW`. -/
theorem clkDrivenLow_before_data (h : EngineInv s) (hop : s.seq.op = .writeByte) (hdly : s.dly = 0)
    (hk : s.seq.k % 3 = 1) (hlt : s.seq.k < 24) : s.pins.clkDrivenLow := by
  obtain ⟨n, hn⟩ := Nat.exists_eq_succ_of_ne_zero (by omega : s.seq.k ≠ 0)
  obtain ⟨p, hp⟩ := h.pins_follow
  obtain ⟨hclkOe, hclkOut, -⟩ := pinsAfter_writeByte s.data p n (by omega)
  rw [State.phasesMade_of_dly_zero hdly, hop, hn] at hp
  rw [hp]
  exact ⟨hclkOe, hclkOut.trans (if_neg (by omega))⟩

end EngineInv

/-- Settles O37: from phase 24 on, bit 7 is the last bit that set the data line. -/
theorem ackSlotKeepsDataLine : Obligations.AckSlotKeepsDataLine := by
  intro s hinv hop hk
  obtain ⟨hge, -⟩ := s.phasesMade_bounds
  have hline := hinv.writeByte_dio hop (by omega)
  rwa [lastBitSent_of_le s.data (by omega)] at hline

/-- Settles O38: what drives the data line is a 1 bit, and it drives `HIGH`. -/
theorem zeroIsNeverDriven : Obligations.ZeroIsNeverDriven := by
  intro s e hinv hop hstarted
  have hmade : 2 ≤ s.phasesMade := by
    rcases hstarted with hk | ⟨hk, hwaiting⟩
    · exact hk.trans s.phasesMade_bounds.1
    · rw [State.phasesMade_of_dly_pos hwaiting, hk]
  obtain ⟨hone, hzero⟩ := hinv.writeByte_dio hop hmade
  cases hbit : lastBitSent s.data s.phasesMade with
  | true =>
    obtain ⟨hdioOe, hhigh⟩ := hone hbit
    refine ⟨fun _ => hhigh, fun hchip hlow => ?_⟩
    rw [dioLine_of_unopposed hdioOe (.inl hchip), hhigh] at hlow
    cases hlow
  | false =>
    have hreleased := hzero hbit
    exact ⟨fun hdriven => by simp [hreleased] at hdriven, fun _ _ => hreleased⟩

/-- Settles O39: only a data phase writes the data line, the clock is driven `LOW` before it, and the phase writes nothing
of the clock line. -/
theorem dataMovesOnlyUnderLowClock : Obligations.DataMovesOnlyUnderLowClock := by
  intro s t hinv hr hop hstep hmoved
  have hne : t.pins ≠ s.pins := by
    intro hsame
    simp [hsame] at hmoved
  have hstart : s.atPhaseStart = true := (step_pins_change hstep hne).resolve_left (by simp [hr])
  obtain ⟨-, -, hdly⟩ := s.atPhaseStart_iff.mp hstart
  have hk := hinv.k_in_range
  rw [hop, SeqOp.last] at hk
  have hpins := step_pins hstep
  rw [State.pinEffect_of_phaseStart hstart, hop, actions] at hpins
  rcases writeByte_phase_cases hk s.data s.pins with ⟨-, hlow⟩ | ⟨hdata, hlt, hset⟩ | ⟨-, hhigh⟩
  · simp [hpins, hlow] at hmoved
  · have hbefore := hinv.clkDrivenLow_before_data hop hdly hdata hlt
    rw [hpins, hset]
    exact ⟨hbefore, hbefore⟩
  · simp [hpins, hhigh] at hmoved

end Sys2Proof.Machine
end

section
/-! PROOFS. An observer of a `WRITE_BYTE` (`41_byte_transfer.md` R76, R73): what it reads at the rising clock edges of
the listing, phase by phase. -/

namespace Sys2Proof.Machine

/-- One more pin state at the end of a trace adds a read if it makes a rising clock edge. -/
theorem risingReads_append_pair (e : Env) (ps : List Pins) (p q : Pins) :
    risingReads e (ps ++ [p, q]) = risingReads e (ps ++ [p]) ++
      if clkLine e p = .low ∧ clkLine e q = .high then [dioLine e q] else [] := by
  induction ps with
  | nil => simp [risingReads]
  | cons p₀ ps ih =>
    cases ps with
    | nil =>
      simp only [List.nil_append, List.cons_append, risingReads] at ih ⊢
      split <;> simp
    | cons p₁ ps =>
      simp only [List.cons_append, risingReads] at ih ⊢
      split <;> simp [ih]

section Listing
variable {e : Env} (d : Byte) (p : Pins)

theorem clkLine_pinsAfter_writeByte {n : Nat} (h : n ≤ 25) :
    clkLine e (pinsAfter .writeByte d (n + 1) p) = if n % 3 = 2 ∨ n = 25 then .high else .low := by
  obtain ⟨hdriven, hlevel, -⟩ := pinsAfter_writeByte d p n h
  rw [clkLine_of_driven hdriven, hlevel]

theorem dioLine_pinsAfter_writeByte {m : Nat} (hchip : e.chip = none) (h2 : 2 ≤ m) (h26 : m ≤ 26) :
    dioLine e (pinsAfter .writeByte d m p) = Level.ofBool (lastBitSent d m) := by
  obtain ⟨hone, hzero⟩ := pinsAfter_writeByte_dio d p h2 h26
  cases hbit : lastBitSent d m with
  | true =>
    obtain ⟨hdriven, hhigh⟩ := hone hbit
    rw [dioLine_of_unopposed hdriven (.inl hchip), hhigh, Level.ofBool]
  | false => rw [dioLine_of_undriven (hzero hbit) hchip, Level.ofBool]

/-- A phase of `WRITE_BYTE` shows a rising clock edge exactly when it drives the clock `HIGH`. -/
theorem risingReads_pinsTrace_writeByte_succ {n : Nat} (hchip : e.chip = none) (h1 : 1 ≤ n) (h25 : n ≤ 25) :
    risingReads e (pinsTrace .writeByte d (n + 1) p) = risingReads e (pinsTrace .writeByte d n p) ++
      if n % 3 = 2 ∨ n = 25 then [Level.ofBool (lastBitSent d (n + 1))] else [] := by
  obtain ⟨m, rfl⟩ := Nat.exists_eq_succ_of_ne_zero (by omega : n ≠ 0)
  have hedge : (clkLine e (pinsAfter .writeByte d (m + 1) p) = .low ∧
      clkLine e (pinsAfter .writeByte d (m + 1 + 1) p) = .high) ↔ (m + 1) % 3 = 2 ∨ m + 1 = 25 := by
    rw [clkLine_pinsAfter_writeByte d p (by omega), clkLine_pinsAfter_writeByte d p h25]
    split_ifs <;> simp <;> omega
  rw [pinsTrace_succ, pinsTrace_succ, List.append_assoc, List.singleton_append, risingReads_append_pair]
  simp only [hedge, dioLine_pinsAfter_writeByte d p hchip (by omega : 2 ≤ m + 1 + 1) (by omega)]

/-- The first `i` triples, and the clock-low phase after them: the first `i` bits. -/
theorem risingReads_triples (hchip : e.chip = none) {i : Nat} (h : i ≤ 8) :
    risingReads e (pinsTrace .writeByte d (3 * i + 1) p) =
      (List.range i).map fun j => Level.ofBool (d.getLsbD j) := by
  induction i with
  | zero => rfl
  | succ i ih =>
    have hdata := risingReads_pinsTrace_writeByte_succ d p (n := 3 * i + 1) hchip (by omega) (by omega)
    have hhigh := risingReads_pinsTrace_writeByte_succ d p (n := 3 * i + 2) hchip (by omega) (by omega)
    have hlow := risingReads_pinsTrace_writeByte_succ d p (n := 3 * i + 3) hchip (by omega) (by omega)
    rw [if_neg (by omega), List.append_nil] at hdata hlow
    rw [if_pos (by omega), lastBitSent_after_triple d h] at hhigh
    calc risingReads e (pinsTrace .writeByte d (3 * i + 3 + 1) p)
      _ = risingReads e (pinsTrace .writeByte d (3 * i + 1) p) ++ [Level.ofBool (d.getLsbD i)] := by
        rw [hlow, hhigh, hdata]
      _ = (List.range (i + 1)).map fun j => Level.ofBool (d.getLsbD j) := by
        rw [ih (by omega), List.range_succ, List.map_append, List.map_singleton]

/-- The listing of `WRITE_BYTE` shows the eight bits, and bit 7 again in the acknowledgment slot. -/
theorem risingReads_opTrace_writeByte (hchip : e.chip = none) :
    risingReads e (opTrace (.writeByte d) p) =
      (List.range 8).map (fun i => Level.ofBool (d.getLsbD i)) ++ [Level.ofBool (d.getLsbD 7)] := by
  change risingReads e (pinsTrace .writeByte d (25 + 1) p) = _
  rw [risingReads_pinsTrace_writeByte_succ d p hchip (by decide) (by decide), if_pos (by decide),
    lastBitSent_of_le d (by decide)]
  exact congrArg (· ++ _) (risingReads_triples d p hchip (Nat.le_refl 8))

end Listing

/-- Settles O36: the trace of the run is the listing. -/
theorem observerRecoversTheByte : Obligations.ObserverRecoversTheByte := by
  intro b rest s e hr hseq hdly hport hchip
  rw [trace_of_presented (.writeByte b) rest s hr hseq hdly hport]
  exact risingReads_opTrace_writeByte b s.pins hchip

end Sys2Proof.Machine
end

section
/-! PROOFS. The pseudo-instruction `FRAME` (`42_frame_sequence.md` R78 to R81, R83): its words and its counts are those
of its three brackets. -/

namespace Sys2Proof

open Machine

/-- The command word of `WRITE_BYTE`: the byte under the `op` bits of R51. -/
theorem encode_writeByte (b : Byte) : encode (.writeByte b) = 0x200 ||| b.setWidth 10 := by
  have hwide : b.setWidth 10 = 0#2 ++ b := BitVec.setWidth_eq_append (v := 8) (w := 10) (by decide)
  calc encode (.writeByte b)
    _ = (0b10#2 ||| 0#2) ++ (0#8 ||| b) := by rw [BitVec.or_zero, BitVec.zero_or]; rfl
    _ = (0b10#2 ++ 0#8) ||| (0#2 ++ b) := BitVec.or_append.symm
    _ = 0x200 ||| b.setWidth 10 := by rw [hwide]; rfl

/-- The command words of a bracket (R79 to R81). -/
theorem bracket_map_encode (bs : List Byte) :
    (bracket bs).map encode = 0x000 :: (bs.map (fun b => 0x200 ||| b.setWidth 10) ++ [0x100]) := by
  have hbytes : (bs.map Instr.writeByte).map encode = bs.map fun b => 0x200 ||| b.setWidth 10 := by
    simp [encode_writeByte]
  rw [← hbytes, bracket, List.map_cons, List.map_append]
  rfl

theorem Frame.words_eq (f : Frame) : f.words =
    (bracket [f.ca]).map encode ++ (bracket (f.cb :: f.ds)).map encode ++ (bracket [f.cc]).map encode := by
  rw [Frame.words, Frame.expand, List.map_append, List.map_append]

/-- Settles O32: bracket by bracket. -/
theorem frameWords : Obligations.FrameWords := by
  intro f
  simp [f.words_eq, bracket_map_encode]

theorem bracket_length (bs : List Byte) : (bracket bs).length = 2 + bs.length := by
  simp [bracket]
  omega

/-- How many operations of each kind a bracket holds. -/
theorem bracket_countP (op : SeqOp) (bs : List Byte) :
    (bracket bs).countP (fun i => seqOpOf i == op) =
      match op with
      | .start | .stop => 1
      | .writeByte => bs.length
      | .idle | .release => 0 := by
  cases op <;> simp [bracket, seqOpOf, List.countP_map, Function.comp_def]

/-- The phases of a bracket: one of `START`, 26 of each byte, three of `STOP` (R79 to R81). -/
theorem bracket_phases (bs : List Byte) : ((bracket bs).map phaseCount).sum = 4 + 26 * bs.length := by
  simp [bracket, phaseCount, Function.comp_def]
  omega

/-- The phases of `FRAME`, whatever the number of data bytes (R83). -/
theorem Frame.expand_phases (f : Frame) : (f.expand.map phaseCount).sum = 90 + 26 * f.ds.length := by
  simp [Frame.expand, bracket_phases]
  omega

/-- Settles O33: the counts of the three brackets, added. -/
theorem frameCounts : Obligations.FrameCounts := by
  intro f _
  refine ⟨?length, ?starts, ?stops, ?bytes, f.expand_phases⟩
  case length => simp [Frame.expand, bracket_length]; omega
  case starts => simp [Frame.expand, bracket_countP]
  case stops => simp [Frame.expand, bracket_countP]
  case bytes => simp [Frame.expand, bracket_countP]; omega

end Sys2Proof
end

section
/-! PROOFS. `FRAME` run on an idle engine (`42_frame_sequence.md` R78, R83): each bracket leaves the idle bus, and of
the pin registers only the data latch remembers which bytes it sent (`10_state.md` R27). -/

namespace Sys2Proof.Machine

/-- The data latch after the bytes `bs`, from the level `l`: a byte that is not zero leaves it `HIGH`, a zero byte
leaves it as it was (R27). -/
def latchAfter (bs : List Byte) (l : Level) : Level := if bs.any (· != 0) then .high else l

theorem latchAfter_append (bs cs : List Byte) (l : Level) :
    latchAfter (bs ++ cs) l = latchAfter cs (latchAfter bs l) := by
  simp only [latchAfter, List.any_append]
  cases bs.any (· != 0) <;> simp

section PostPins
variable (p : Pins)

theorem postPinsAll_append (ws us : List CmdWord) : postPinsAll (ws ++ us) p = postPinsAll us (postPinsAll ws p) :=
  List.foldl_append

theorem postPinsAll_encode_cons (i : Instr) (is : List Instr) :
    postPinsAll ((i :: is).map encode) p = postPinsAll (is.map encode) (postPins i p) := by
  rw [List.map_cons, postPinsAll, List.foldl_cons, decodeWord_encode, postPinsAll]

theorem postPinsAll_writeBytes_dioOut (bs : List Byte) :
    (postPinsAll ((bs.map Instr.writeByte).map encode) p).dioOut = latchAfter bs p.dioOut := by
  induction bs generalizing p with
  | nil => rfl
  | cons b bs ih =>
    rw [List.map_cons, postPinsAll_encode_cons, ih, ← List.singleton_append, latchAfter_append]
    simp [postPins, latchAfter]

/-- `START` and `STOP` keep the latch, and `STOP` fixes the other three registers (R27). -/
theorem postPinsAll_bracket (bs : List Byte) :
    postPinsAll ((bracket bs).map encode) p = ⟨.output, .high, .input, latchAfter bs p.dioOut⟩ := by
  have hlatch := postPinsAll_writeBytes_dioOut (postPins (.start 0) p) bs
  rw [bracket, postPinsAll_encode_cons, List.map_append, postPinsAll_append, postPinsAll_encode_cons]
  exact congrArg (Pins.mk .output .high .input) hlatch

/-- `FRAME` leaves the idle bus (R78). -/
theorem postPinsAll_words (f : Frame) :
    postPinsAll f.words p = ⟨.output, .high, .input, latchAfter f.bytes p.dioOut⟩ := by
  have hbytes : f.bytes = [f.ca] ++ (f.cb :: f.ds) ++ [f.cc] := by simp [Frame.bytes]
  rw [f.words_eq, hbytes, latchAfter_append, latchAfter_append]
  simp only [postPinsAll_append, postPinsAll_bracket]

end PostPins

/-- The last word of `FRAME` is a canonical `STOP` (R53, R78). -/
theorem lastData_words (f : Frame) (d : Byte) : lastData f.words d = 0 := by
  rw [f.words_eq, lastData, List.foldl_append]
  rfl

/-- Settles O34: the run of a list of command words, for the words of `FRAME`, the encodings of its operations. -/
theorem frameRun : Obligations.FrameRun := by
  intro f rest s _ hr hseq hd hport
  have hrun := programPostState f.words rest s hr hseq hd hport
  obtain ⟨-, hlength⟩ := programTraceIsTheListings f.words rest s hr hseq hd hport
  have hphases : (f.words.map fun w => phaseCount (decodeWord w)) = f.expand.map phaseCount := by
    simp [Frame.words]
  rw [hrun, postPinsAll_words, lastData_words, hlength, hphases, f.expand_phases]
  exact ⟨rfl, rfl⟩

end Sys2Proof.Machine
end

section
/-! PROOFS. The system operation `RELEASE` (`43_system.md` R85): its one phase. -/

namespace Sys2Proof.Machine

/-- The pin writes of `RELEASE`: both directions and neither latch, whatever the position (R85). -/
theorem phasePins_release (k : Nat) (d : Byte) (p : Pins) :
    phasePins (actions .release k d) p = { p with clkOe := .input, dioOe := .input } := rfl

/-- Settles O11: the phase start of `RELEASE`. -/
theorem releasePhase : Obligations.ReleasePhase := by
  intro d s hseq hdly
  have hop : s.seq.op = .release := by rw [hseq]
  rw [exec_phase_eq (.release d) s hop hdly, seqOpOf, phasePins_release]

end Sys2Proof.Machine
end

section
/-! PROOFS. No step stops, and the environment takes no part in any (`60_exceptions.md` R89, R91): what the chip and the
board do reaches no register and no trace. -/

namespace Sys2Proof.Machine

/-- Every step answers a next state (R89). -/
theorem step_answers_next (s : State) : ∃ t, step s = .next t := by
  cases hr : s.rst with
  | true => exact ⟨_, step_rst s hr⟩
  | false =>
    cases hc : s.current with
    | none => exact ⟨s, by simp [step, hr, hc]⟩
    | some i =>
      rw [step_of_current hr hc]
      exact exec_answers_next i s

/-- Settles O24: every event and every step answers a next state, and a fault has no constructor. -/
theorem nothingEverFaults : Obligations.NothingEverFaults :=
  ⟨exec_answers_next, step_answers_next, fun r => nomatch r⟩

/-- In any other environment `s` makes the same step, and the step keeps that environment (R72, R91). -/
theorem step_with_env {s t : State} (h : step s = .next t) (e : Env) :
    step { s with env := e } = .next { t with env := e } := by
  rcases step_cases h with ⟨hr, rfl⟩ | ⟨hr, hop, hport, rfl⟩ | ⟨hr, hop, w, rest, hport, rfl⟩ | ⟨hr, hop, hdly, rfl⟩ |
    ⟨hr, hop, n, hdly, rfl⟩
  · exact step_rst { s with env := e } hr
  · exact step_idle { t with env := e } hr hop hport
  · exact step_accept { s with env := e } w rest hr hop hport
  · rw [step_phase { s with env := e } hr hop hdly]
    simp only [State.beginPhase_eq]
  · rw [step_wait { s with env := e } n hr hop hdly]
    cases n <;> rfl

/-- New inputs overwrite the reset input and the environment: of the old ones nothing is left. -/
theorem State.withInputs_overwrites (s : State) (r : Bool) (e : Env) {i j : Inputs} (hrst : i.rst = j.rst)
    (hpresent : i.present = j.present) :
    State.withInputs { s with rst := r, env := e } j = { s.withInputs i with env := j.env } := by
  simp only [State.withInputs, hrst, hpresent]

theorem runUnder_cons {s t : State} {i : Inputs} (h : stepUnder i s = .next t) (is : List Inputs) :
    runUnder (i :: is) s = runUnder is t := by
  rw [runUnder, h]

theorem traceUnder_cons {s t : State} {i : Inputs} (h : stepUnder i s = .next t) (is : List Inputs) :
    traceUnder (i :: is) s =
      if (s.withInputs i).atPhaseStart then t.pins :: traceUnder is t else traceUnder is t := by
  rw [traceUnder, h]

/-- Runs under the same resets and commands, from states that differ only in the reset input and the environment, have
the same trace and end in states that differ only there (R91). -/
theorem runUnder_ignores_env (is js : List Inputs)
    (hsame : is.map (fun i => (i.rst, i.present)) = js.map (fun j => (j.rst, j.present))) (s : State) (r : Bool)
    (e : Env) :
    traceUnder is s = traceUnder js { s with rst := r, env := e } ∧
    ∃ u r' e', runUnder is s = .next u ∧
      runUnder js { s with rst := r, env := e } = .next { u with rst := r', env := e' } := by
  induction is generalizing js s r e with
  | nil =>
    obtain rfl : js = [] := List.map_eq_nil_iff.mp hsame.symm
    exact ⟨rfl, s, r, e, rfl, rfl⟩
  | cons i is ih =>
    cases js with
    | nil => exact absurd hsame (List.cons_ne_nil _ _)
    | cons j js =>
      obtain ⟨hij, hrest⟩ := List.cons.inj hsame
      obtain ⟨hrst, hpresent⟩ := Prod.mk.inj hij
      have hinputs := s.withInputs_overwrites r e hrst hpresent
      obtain ⟨t, hstep⟩ : ∃ t, stepUnder i s = .next t := step_answers_next (s.withInputs i)
      have hstep' : stepUnder j { s with rst := r, env := e } = .next { t with env := j.env } := by
        rw [stepUnder, hinputs]
        exact step_with_env hstep j.env
      obtain ⟨htrace, hrun⟩ := ih js hrest t t.rst j.env
      rw [traceUnder_cons hstep, traceUnder_cons hstep', runUnder_cons hstep, runUnder_cons hstep', hinputs, ← htrace]
      exact ⟨rfl, hrun⟩

/-- Settles O27: the second state is the first but for its reset input and its environment. -/
theorem chipNeverMatters : Obligations.ChipNeverMatters := by
  intro is js s t hsame hpins hseq hdata hdly hcfg hport
  have hst : { s with rst := t.rst, env := t.env } = t := by rw [hpins, hseq, hdata, hdly, hcfg, hport]
  obtain ⟨htrace, u, r, e, hs, ht⟩ := runUnder_ignores_env is js hsame s t.rst t.env
  rw [hst] at htrace ht
  exact ⟨htrace, u, _, hs, ht, rfl, rfl, rfl, rfl, rfl⟩

end Sys2Proof.Machine
end

section
/-! PROOFS. Every operation in progress ends (`70_reset_and_hazards.md` R130): one phase or its rest takes at most
`1 + DLY_CYCLES` steps to the next position, and no operation has more than 26 positions. -/

namespace Sys2Proof.Machine

/-- At most `n` steps from `s` answer a state that is not busy, with the port unchanged. -/
def EndsWithin (n : Nat) (s : State) : Prop :=
  ∃ m t, m ≤ n ∧ run m s = .next t ∧ t.busy = false ∧ t.port = s.port

theorem EndsWithin.of_idle {s : State} (h : s.seq.op = .idle) (n : Nat) : EndsWithin n s :=
  ⟨0, s, Nat.zero_le n, rfl, s.busy_eq_false_iff.mpr h, rfl⟩

/-- Steps that keep the port, before a run that ends. -/
theorem EndsWithin.after_run {m n : Nat} {s t : State} (hrun : run m s = .next t) (hport : t.port = s.port)
    (h : EndsWithin n t) : EndsWithin (m + n) s := by
  obtain ⟨k, u, hk, hrest, hidle, hkept⟩ := h
  exact ⟨m + k, u, Nat.add_le_add_left hk m, (run_add m k s t hrun).trans hrest, hidle, hkept.trans hport⟩

theorem EndsWithin.mono {m n : Nat} {s : State} (h : EndsWithin m s) (hle : m ≤ n) : EndsWithin n s := by
  obtain ⟨k, t, hk, hend⟩ := h
  exact ⟨k, t, hk.trans hle, hend⟩

theorem SeqOp.last_le (op : SeqOp) : op.last ≤ 25 := by cases op <;> decide

/-- The phase that is next, or what is left of the wait under way, takes at most `1 + DLY_CYCLES` steps to the next
position; of the registers other than `SEQ` and `DLY` only the pins may have changed. -/
theorem run_to_next_position (s : State) (hr : s.rst = false) (hop : s.seq.op ≠ .idle)
    (hbound : s.dly ≤ s.cfg.dlyCycles) :
    ∃ m p, m ≤ 1 + s.cfg.dlyCycles ∧ run m s = .next { s with pins := p, dly := 0, seq := s.seq.advance } := by
  cases hd : s.dly with
  | zero =>
    obtain ⟨hphase, -⟩ := runsWith_phase s hr hop hd
    exact ⟨_, _, Nat.le_refl _, hd ▸ hphase⟩
  | succ n => exact ⟨n + 1, s.pins, by omega, run_wait s n hr hop hd⟩

/-- An operation with at most `m` phases after the one it is at ends within the steps of `m + 1` phases. -/
theorem endsWithin_of_phases_left (m : Nat) (s : State) (hr : s.rst = false) (hbound : s.dly ≤ s.cfg.dlyCycles)
    (hm : s.seq.op.last ≤ s.seq.k + m) : EndsWithin ((m + 1) * (1 + s.cfg.dlyCycles)) s := by
  by_cases hop : s.seq.op = .idle
  · exact .of_idle hop _
  induction m generalizing s with
  | zero =>
    obtain ⟨n, p, hn, hrun⟩ := run_to_next_position s hr hop hbound
    rw [Seq.advance_of_last_le hm] at hrun
    exact (EndsWithin.after_run hrun rfl (.of_idle rfl 0)).mono (by omega)
  | succ m ih =>
    obtain ⟨n, p, hn, hrun⟩ := run_to_next_position s hr hop hbound
    rw [Nat.succ_mul, Nat.add_comm]
    refine (EndsWithin.after_run hrun rfl ?_).mono (Nat.add_le_add_right hn _)
    rcases Nat.lt_or_ge s.seq.k s.seq.op.last with hinner | hlast
    · have hleft : s.seq.op.last ≤ s.seq.k + 1 + m := by omega
      rw [Seq.advance_of_lt hinner]
      exact ih { s with pins := p, dly := 0, seq := ⟨s.seq.op, s.seq.k + 1⟩ } hr (Nat.zero_le _) hleft hop
    · rw [Seq.advance_of_last_le hlast]
      exact .of_idle rfl _

/-- Settles O28: from any position at most 25 phases follow. -/
theorem busyFallsInBoundedTime : Obligations.BusyFallsInBoundedTime := fun s hinv hr _ =>
  endsWithin_of_phases_left 25 s hr hinv.dly_bounded (s.seq.op.last_le.trans (Nat.le_add_left _ _))

end Sys2Proof.Machine
end

section
/-! PROOFS. The host's bracket discipline (`70_reset_and_hazards.md` R115): each bracket of `FRAME` opens and closes. -/

namespace Sys2Proof.Machine

theorem bracketed_writeBytes (bs : List Byte) (is : List Instr) :
    bracketed true (bs.map .writeByte ++ is) = bracketed true is := by
  induction bs with
  | nil => rfl
  | cons b bs ih => simpa [bracketed] using ih

/-- A bracket, met with none open, leaves none open. -/
theorem bracketed_bracket (bs : List Byte) (is : List Instr) :
    bracketed false (bracket bs ++ is) = bracketed false is := by
  rw [bracket, List.cons_append, List.append_assoc, bracketed, bracketed_writeBytes]
  rfl

/-- Settles O35: bracket by bracket. -/
theorem frameKeepsBrackets : Obligations.FrameKeepsBrackets := by
  intro f
  rw [← List.append_nil f.expand, Frame.expand, List.append_assoc, List.append_assoc, bracketed_bracket,
    bracketed_bracket, bracketed_bracket]
  rfl

end Sys2Proof.Machine
end

section
/-! PROOFS. Reset and what follows it (`70_reset_and_hazards.md` R107 to R111, R119): the registers, the released lines,
the first bracket, and the software form's drive. -/

namespace Sys2Proof.Machine

/-- Settles O19: a step with `rst` asserted is the reset of the registers. -/
theorem resetRegisters : Obligations.ResetRegisters := fun s hr =>
  ⟨s.applyReset, step_rst s hr, s.applyReset.busy_eq_false_iff.mpr rfl, rfl⟩

section Lines
variable {e : Env} {p : Pins}

/-- Both lines released, the chip not driving: the environment's level and the pull-down's (R34). -/
theorem lines_of_released (hchip : e.chip = none) (hclk : p.clkOe = .input) (hdio : p.dioOe = .input) :
    clkLine e p = e.clkReleased ∧ dioLine e p = .low :=
  ⟨clkLine_of_released hclk, dioLine_of_undriven hdio hchip⟩

/-- With the data latch 0 and the chip not driving, the data line is `LOW` in either direction. -/
theorem dioLine_of_latch_low (hchip : e.chip = none) (hlatch : p.dioOut = .low) : dioLine e p = .low := by
  cases hdio : p.dioOe with
  | output => rw [dioLine_of_unopposed hdio (.inl hchip), hlatch]
  | input => exact dioLine_of_undriven hdio hchip

end Lines

/-- Settles O46: both leave both lines released, reset by the values of R24 and `RELEASE` by its row of R27. -/
theorem releasedLinesAfterResetAndRelease : Obligations.ReleasedLinesAfterResetAndRelease := by
  intro s e hop hdly hchip
  exact ⟨fun hr => ⟨_, step_rst s hr, lines_of_released hchip rfl rfl⟩,
    fun d => ⟨_, operationPostState (.release d) s hop hdly, lines_of_released hchip rfl rfl⟩⟩

/-- The listing of `WRITE_BYTE` begins with the clock driven `LOW` (R67). -/
theorem opTrace_writeByte_head (b : Byte) (p : Pins) :
    ∃ ps, opTrace (.writeByte b) p = { p with clkOe := .output, clkOut := .low } :: ps := ⟨_, rfl⟩

/-- Settles O45: the run's trace is the listing of `START`, one pin state, and then that of `WRITE_BYTE`. -/
theorem firstBracketAfterReset : Obligations.FirstBracketAfterReset := by
  intro c e b rest
  obtain ⟨htrace, -⟩ := programTraceIsTheListings [encode (.start 0), encode (.writeByte b)] rest
    { State.resetWith c e with port := encode (.start 0) :: encode (.writeByte b) :: rest } rfl rfl rfl rfl
  obtain ⟨ps, hbyte⟩ := opTrace_writeByte_head b (postPins (.start 0) (.atReset c))
  have hprogram : programTrace [encode (.start 0), encode (.writeByte b)] (.atReset c) =
      opTrace (.start 0) (.atReset c) ++ (opTrace (.writeByte b) (postPins (.start 0) (.atReset c)) ++ []) := by
    simp only [programTrace, decodeWord_encode]
  rw [opTrace_start, hbyte] at hprogram
  exact (congrArg (List.take 2) (htrace.trans hprogram)).trans rfl

/-- The two calls pass through the direction alone and end where `Drive` ends (R119, R33). -/
theorem Pins.driveTwoCall_eq (p : Pins) (l : Line) (v : Level) :
    p.driveTwoCall l v = [p.setDir l .output, p.drive l v] := by
  cases l <;> rfl

/-- Settles O43: the data latch is 0 before the two calls and between them, so both show `LOW`. -/
theorem twoCallDriveShowsNoEdge : Obligations.TwoCallDriveShowsNoEdge := by
  intro p e ⟨hclkOe, hclkOut⟩ hlatch hchip
  rw [Pins.driveTwoCall_eq, Pins.setDir_dio, hclkOe, hclkOut, hlatch]
  exact ⟨rfl, (dioLine_of_latch_low hchip rfl).trans (dioLine_of_latch_low hchip hlatch).symm⟩

end Sys2Proof.Machine
end

section
/-! PROOFS. The command that waits while another operation runs (`30_encoding.md` R55, log entry 4). -/

namespace Sys2Proof.Machine

/-- Settles O13: this is the last branch of the engine's event, neither accepting nor running, which `exec_other`
states for all four instructions. -/
theorem commandHeldWhileAnotherRuns : Obligations.CommandHeldWhileAnotherRuns := fun i s hbusy hother =>
  exec_other i s hbusy hother

end Sys2Proof.Machine
end
